-- ==== Sys2Proof/Word.lean ====
section
/-! DEFINITION. The word types of the CA-One core and their plainest views (spec/00_scope.md R5 to R7). -/

namespace Sys2Proof

/-- A register value, a memory byte, an operand byte, an immediate or an 8-bit address: unsigned, 0..255
(R5 REG_WIDTH and ADDR_WIDTH, R7). -/
abbrev Byte := BitVec 8

/-- The program counter: 9 bits (R5 PC_WIDTH, R23), so that 256..259 are held exactly and never wrap to 0. -/
abbrev Pc := BitVec 9

/-- The index of a general register, R0 to R7 (R5 NUM_REGS, R20). -/
abbrev Reg := Fin 8

/-- The operand byte that names register `i` (R64: the valid values are 0..7). -/
def regByte (i : Reg) : Byte := BitVec.ofNat 8 i.val

end Sys2Proof
end

