-- ==== Sys2Proof/Machine/Flags.lean ====
section
/-! DEFINITION. The flags register's values and the one operation that computes them (spec/10_state.md R25,
spec/42_alu.md R116). -/

namespace Sys2Proof.Machine

/-- Equal: bit 0 (R25). -/
def flEqual : Byte := 1

/-- Greater: bit 1 (R25). -/
def flGreater : Byte := 2

/-- Less: bit 2 (R25). -/
def flLess : Byte := 4

/-- `FL` after CMP: exactly one of the three outcomes, by the UNSIGNED relation of the two values (R116). -/
def compareFlags (a b : Byte) : Byte :=
  if a.toNat = b.toNat then flEqual
  else if a.toNat > b.toNat then flGreater
  else flLess

end Sys2Proof.Machine
end

