-- ==== Sys2Proof/Config.lean ====
section
/-! DEFINITION. The parameters of the core (spec/00_scope.md R5) and the values the spec leaves free. -/

namespace Sys2Proof

/-- R5 `MEM_SIZE`: 256 bytes, addresses 0..255. -/
def Config.memSize : Nat := 256

/-- R5 `SP_INDEX`: R7 is the stack pointer (R21). -/
abbrev Config.spIndex : Reg := 7

/-- R5 `SP_INIT`: 0xF4 (R30). -/
def Config.spInit : Byte := 0xF4

/-- FREE VALUE. The byte the launch image holds at an address the loader did not poke: R48 and
93_implementation_defined.md I6 say a model must quantify over it and must not assume 0. No body: nothing can
be proved of its value. DESIGN CHOICE, log entry 1 (safe). -/
opaque Config.launchByte : Byte → Byte

/-- FREE VALUE behind `Config.fatalStatus`: any integer at all. No body. Log entry 2 (safe). -/
opaque Config.fatalChoice : Int

/-- R5 `FATAL_STATUS`: a nonzero integer, left OPEN by the spec (92_eei_decisions.md D10). Shifting the free
`fatalChoice` past 0 reaches every nonzero integer exactly once, and never 0, so a claim may assume that it is
nonzero and nothing else. Log entry 2. -/
def Config.fatalStatus : Int := if Config.fatalChoice < 0 then Config.fatalChoice else Config.fatalChoice + 1

end Sys2Proof
end

