-- ==== Sys2Proof/Machine/State.lean ====
section
/-! DEFINITION. The state of the CA-One core: the tuple of spec/10_state.md and the memory of spec/20_memory.md,
as plain data, and the state after reset. -/

namespace Sys2Proof.Machine

/-- The three kinds of `ADDR_FAULT` (R46, R151). -/
inductive AddrKind where
  | fetch | stack | returnAddress
  deriving DecidableEq, Repr

/-- A fatal fault of the SPEC (R151) with the info it records. It is architectural state: taking it is a next state
(R152, `State.takeFault`), not a `Fault` of the model. `pc` is `pc_fetch`, the faulting instruction's address. -/
inductive FatalFault where
  /-- Code 1, raised by DIV (R113): `a` and `b` are the operand bytes. -/
  | divByZero (pc : Pc) (a b : Byte)
  /-- Codes 2 to 4: the address that is out of range (FETCH), SP before (STACK), or 256 (RETURN_ADDRESS). -/
  | addrFault (kind : AddrKind) (pc : Pc) (addr : Nat)
  /-- Code 5: the register operand byte of 8 or more (R83). -/
  | badReg (pc : Pc) (byte : Byte)
  deriving DecidableEq, Repr

/-- The run status (R28). -/
inductive RunStatus where
  | running
  | halted
  | faulted (f : FatalFault)
  deriving DecidableEq, Repr

/-- A record of the diagnostic channel (R29). The text of a message is the host's business (D26). -/
inductive Diag where
  /-- The soft failure of R86: `Diag(UNKNOWN_OPCODE, op, pc)`. -/
  | unknownOpcode (op : Byte) (pc : Pc)
  /-- A fatal fault (R152): `Diag(k, i)`. -/
  | fatal (f : FatalFault)
  deriving DecidableEq, Repr

/-- Memory as data: the bytes written or poked so far, by address. -/
abbrev Memory := List Host.Cell

/-- The canonical form: addresses strictly rising, and inside the 256-byte address space (R40). An address that is
not listed holds NO value of its own here (`Memory.get?` answers none; what the machine then reads is the launch
image's free byte, `State.readByte`), so no listed byte repeats what an unlisted address answers, and equal
memories are equal lists. -/
abbrev Memory.wf (m : Memory) : Prop :=
  m.Pairwise (fun c d => c.1 < d.1) ∧ ∀ c ∈ m, c.1 < Config.memSize

/-- Everything the spec gives the machine (10_state.md: `(x[0..7], pc, FL, status, exit_status, out, diag)` plus
memory). -/
structure State where
  /-- `x[0]` to `x[7]`; `x[7]` is SP (R20, R21). -/
  regs : Vector Byte 8
  /-- The program counter (R23). -/
  pc : Pc
  /-- The flags register: 1 Equal, 2 Greater, 4 Less, 0 before any compare (R25). -/
  fl : Byte
  /-- The run status (R28). -/
  status : RunStatus
  /-- The exit status, meaningful once `status` is not running (R28). -/
  exitStatus : Int
  /-- The output channel, oldest first (R29). -/
  out : List Byte
  /-- The diagnostic channel, oldest first (R29). -/
  diag : List Diag
  /-- The bytes poked or stored so far (R41, R48). -/
  mem : Memory
  deriving DecidableEq, Repr

/-- A step that stops outside the spec. It has NO constructor: every stop the spec describes is a next state
(HALTED by R142, FAULTED by R152), and the spec leaves no behaviour without an effect, so nothing raises one. -/
inductive Fault where
  deriving DecidableEq, Repr

/-- A step the model gives no meaning to. -/
inductive Refusal where
  /-- Raised only by an arm of `exec` whose instruction has no meaning yet (safe); at present no arm does. -/
  | notModelled (mnemonic : String)
  deriving DecidableEq, Repr

/-- The outcome of a step of this machine. -/
abbrev Result := Host.Outcome State Fault Refusal

/-- The state right after construction (R30, R170, R171): R0 to R6 are 0, SP is 0xF4, `pc` and `FL` are 0, the run
status is RUNNING, both channels are empty, and no byte of the launch image is fixed (R48). `exitStatus` is
unspecified while RUNNING; 0 is the model's value for it (DESIGN CHOICE, log entry 3, unsafe). -/
def State.reset : State where
  regs := #v[0, 0, 0, 0, 0, 0, 0, Config.spInit]
  pc := 0
  fl := 0
  status := .running
  exitStatus := 0
  out := []
  diag := []
  mem := []

end Sys2Proof.Machine
end

