-- ==== Sys2Proof/Machine/Ops.lean ====
section
/-! DEFINITION. The operations every instruction is written with: memory, registers, `pc`, the channels, the stack,
and taking a fatal fault (the primitives of spec/00_scope.md R8). -/

namespace Sys2Proof.Machine

/-- The byte listed at an address, if any. -/
def Memory.get? : Memory → Nat → Option Byte
  | [], _ => none
  | (k, v) :: m, a => if a = k then some v else Memory.get? m a

/-- Overwrite in place (R41), keeping the addresses strictly rising. -/
def Memory.put : Memory → Nat → Byte → Memory
  | [], a, v => [(a, v)]
  | (k, w) :: m, a, v =>
    if a < k then (a, v) :: (k, w) :: m
    else if a = k then (a, v) :: m
    else (k, w) :: Memory.put m a v

/-- `MemRead(a, 1)` (R41): the last byte written or poked at `a`, else the launch image's byte there, which is free
(R48; log entry 1). The address is 8 bits, so it is in range by its type (R46). -/
def State.readByte (s : State) (a : Byte) : Byte :=
  (s.mem.get? a.toNat).getD (Config.launchByte a)

/-- `MemWrite(a, 1, v)` (R41). -/
def State.writeByte (s : State) (a v : Byte) : State :=
  { s with mem := s.mem.put a.toNat v }

/-- Read `x[i]` (R8). -/
def State.reg (s : State) (i : Reg) : Byte := s.regs[i.val]

/-- Write `x[i]` (R8). No register is hardwired (R20). -/
def State.setReg (s : State) (i : Reg) (v : Byte) : State :=
  { s with regs := s.regs.set i.val v }

/-- `SP` is another name for `x[7]` (R21). -/
def State.sp (s : State) : Byte := s.reg Config.spIndex

/-- Write SP (R21). -/
def State.setSp (s : State) (v : Byte) : State := s.setReg Config.spIndex v

/-- Write `FL` (R8). -/
def State.setFl (s : State) (v : Byte) : State := { s with fl := v }

/-- The generic advance `pc <- pc + 1 + N` (R84). From a fetch at `pc ≤ 255` the sum is at most 259 and fits 9 bits,
so it is not reduced. -/
def State.advance (s : State) (n : Nat) : State :=
  { s with pc := BitVec.ofNat 9 (s.pc.toNat + 1 + n) }

/-- A redirect: `pc` is exactly the handler's target, an 8-bit value (R85, R136). -/
def State.redirect (s : State) (target : Byte) : State :=
  { s with pc := BitVec.ofNat 9 target.toNat }

/-- `emit Out(v)` (R29). -/
def State.emitOut (s : State) (v : Byte) : State := { s with out := s.out ++ [v] }

/-- `emit Diag(...)` (R29). -/
def State.emitDiag (s : State) (d : Diag) : State := { s with diag := s.diag ++ [d] }

/-- `halt(0)` (R8, R28, R142). -/
def State.halt (s : State) : State := { s with status := .halted, exitStatus := 0 }

/-- TAKING A FATAL FAULT (R152), `raise` of R8, applied to the state the step began in: nothing the step would have
written stands, `pc` still holds `pc_fetch`, the kind and info go to the run status and to the diagnostic channel,
and the exit status is `FATAL_STATUS`. Nothing returns from it (R153). -/
def State.takeFault (s : State) (f : FatalFault) : State :=
  { s with status := .faulted f, exitStatus := Config.fatalStatus, diag := s.diag ++ [.fatal f] }

/-- The soft failure of an unrecognized opcode (R86): one record, and the advance by the byte's own bits 7:6. -/
def State.softFail (s : State) (op : Byte) (n : Nat) : State :=
  (s.emitDiag (.unknownOpcode op s.pc)).advance n

/-- The address a push stores to: the decremented SP (R100). -/
def State.pushAddr (s : State) : Byte := s.sp - 1

/-- The push primitive after its check (R100): decrement SP, then write the value at the new SP; the value is
evaluated AFTER the decrement (D12), which is why it is a function of the state. -/
def State.push (s : State) (value : State → Byte) : State :=
  let t := s.setSp s.pushAddr
  t.writeByte s.pushAddr (value t)

/-- The check of the push primitive (R100): with SP = 0 the fault is raised before any write, else `next`. -/
def State.checkPush (s : State) (next : State) : State :=
  if s.sp = 0 then s.takeFault (.addrFault .stack s.pc s.sp.toNat) else next

/-- The byte a pop takes: the byte at the current SP (R101). -/
def State.popValue (s : State) : Byte := s.readByte s.sp

/-- SP after a pop, unbounded (R101): the increment reads `x[7]` again after `dest` is written, so a pop into R7
increments the popped byte. `dest` is none for RET, whose destination is `pc` (R131). -/
def State.popSpAfter (s : State) (dest : Option Reg) : Nat :=
  (if dest = some Config.spIndex then s.popValue else s.sp).toNat + 1

/-- The pop primitive (R101): the fault is decided before either write; then `write` puts the popped byte into the
destination and SP takes its new value. -/
def State.pop (s : State) (dest : Option Reg) (write : State → Byte → State) : State :=
  if s.popSpAfter dest > 255 then s.takeFault (.addrFault .stack s.pc s.sp.toNat)
  else (write s s.popValue).setSp (BitVec.ofNat 8 (s.popSpAfter dest))

/-- The address a fault recorded as `pc_fetch` (R152: the info includes it). -/
def FatalFault.pcFetch : FatalFault → Pc
  | .divByZero pc _ _ => pc
  | .addrFault _ pc _ => pc
  | .badReg pc _ => pc

/-- The cause codes of R151 (D28): codes 1 to 5, the fatal kinds. Only the host sees them. -/
def FatalFault.causeCode : FatalFault → Nat
  | .divByZero _ _ _ => 1
  | .addrFault .fetch _ _ => 2
  | .addrFault .stack _ _ => 3
  | .addrFault .returnAddress _ _ => 4
  | .badReg _ _ => 5

/-- The cause code of a diagnostic record (R151): 6 for the soft failure. -/
def Diag.causeCode : Diag → Nat
  | .unknownOpcode _ _ => 6
  | .fatal f => f.causeCode

/-- The cause code of a run status (R151): 0 for the clean stop, none while RUNNING. -/
def RunStatus.causeCode? : RunStatus → Option Nat
  | .running => none
  | .halted => some 0
  | .faulted f => some f.causeCode

end Sys2Proof.Machine
end

