-- ==== Sys2Proof/Machine/Operands.lean ====
section
/-! DEFINITION. The operand forms (spec/30_encoding.md R64, R65; spec/40_dispatcher.md R83): a register operand byte
is an index 0..7 or the fault BAD_REG; an immediate is the byte itself and needs no operation. -/

namespace Sys2Proof.Machine

/-- The register an operand byte names; none for 8 or more. The byte is not masked (R64). -/
def regIndex? (b : Byte) : Option Reg :=
  if h : b.toNat < 8 then some ⟨b.toNat, h⟩ else none

/-- A register operand (R83): check it before anything else, then go on with its index. -/
def State.withReg (s : State) (r : Byte) (k : Reg → State) : State :=
  match regIndex? r with
  | none => s.takeFault (.badReg s.pc r)
  | some i => k i

/-- Two register operands (R83): `ra`, then `rb`; the first failing operand is the one reported. -/
def State.withRegs (s : State) (a b : Byte) (k : Reg → Reg → State) : State :=
  s.withReg a fun i => s.withReg b fun j => k i j

end Sys2Proof.Machine
end

