-- ==== Sys2Proof/Machine/Alu.lean ====
section
/-! DEFINITION. The integer ALU: ADD, MUL, DIV, INC, DEC and CMP (spec/42_alu.md R110 to R116). -/

namespace Sys2Proof.Machine

/-- The exact sum, reduced mod 256 (R110, R111). -/
def aluAdd (x y : Byte) : Byte := BitVec.ofNat 8 (x.toNat + y.toNat)

/-- The exact product, reduced mod 256 (R110, R112). -/
def aluMul (x y : Byte) : Byte := BitVec.ofNat 8 (x.toNat * y.toNat)

/-- The integer quotient `floor(x / y)` (R110, R113); DIV uses it only where `y` is not 0. -/
def aluDiv (x y : Byte) : Byte := BitVec.ofNat 8 (x.toNat / y.toNat)

/-- `(x + 1) mod 256` (R114). -/
def aluInc (x : Byte) : Byte := BitVec.ofNat 8 (x.toNat + 1)

/-- `(x - 1) mod 256`, computed in the integers (R115). -/
def aluDec (x : Byte) : Byte := BitVec.ofInt 8 ((x.toNat : Int) - 1)

/-- ADD (R111). -/
def execAdd (a b : Byte) (s : State) : Result :=
  .next <| s.withRegs a b fun i j => (s.setReg i (aluAdd (s.reg i) (s.reg j))).advance 2

/-- MUL (R112). -/
def execMul (a b : Byte) (s : State) : Result :=
  .next <| s.withRegs a b fun i j => (s.setReg i (aluMul (s.reg i) (s.reg j))).advance 2

/-- DIV (R113): a zero divisor takes the fatal fault before anything is written. -/
def execDiv (a b : Byte) (s : State) : Result :=
  .next <| s.withRegs a b fun i j =>
    if s.reg j = 0 then s.takeFault (.divByZero s.pc a b)
    else (s.setReg i (aluDiv (s.reg i) (s.reg j))).advance 2

/-- INC (R114). -/
def execInc (r : Byte) (s : State) : Result :=
  .next <| s.withReg r fun i => (s.setReg i (aluInc (s.reg i))).advance 1

/-- DEC (R115). -/
def execDec (r : Byte) (s : State) : Result :=
  .next <| s.withReg r fun i => (s.setReg i (aluDec (s.reg i))).advance 1

/-- CMP (R116): overwrites all of `FL`, writes no register. -/
def execCmp (a b : Byte) (s : State) : Result :=
  .next <| s.withRegs a b fun i j => (s.setFl (compareFlags (s.reg i) (s.reg j))).advance 2

end Sys2Proof.Machine
end

