-- ==== Sys2Proof/Machine/Control.lean ====
section
/-! DEFINITION. Control transfer: CALL, RET, JMP, JEQ, JNE (spec/43_control.md R130 to R136). -/

namespace Sys2Proof.Machine

/-- The return address of a CALL, unbounded: the address of the instruction after it (R130). -/
def State.returnAddress (s : State) : Nat := s.pc.toNat + 2

/-- CALL (R130): STACK is checked before RETURN_ADDRESS (R154); the target register is read after the decrement,
so `CALL R7` jumps to the decremented SP. -/
def execCall (r : Byte) (s : State) : Result :=
  .next <| s.withReg r fun i =>
    s.checkPush <|
      if s.returnAddress > 255 then s.takeFault (.addrFault .returnAddress s.pc s.returnAddress)
      else
        let t := s.push fun _ => BitVec.ofNat 8 s.returnAddress
        t.redirect (t.reg i)

/-- RET (R131): a pop whose destination is `pc`; SP rises by exactly 1 (90_conflicts.md C1). -/
def execRet (s : State) : Result :=
  .next <| s.pop none fun t v => t.redirect v

/-- JMP (R135). -/
def execJmp (r : Byte) (s : State) : Result :=
  .next <| s.withReg r fun i => s.redirect (s.reg i)

/-- JEQ (R133): the operand is checked whether or not the branch is taken. -/
def execJeq (r : Byte) (s : State) : Result :=
  .next <| s.withReg r fun i => if s.fl = flEqual then s.redirect (s.reg i) else s.advance 1

/-- JNE (R134): taken for `FL` = 0 (no compare yet), 2 and 4. -/
def execJne (r : Byte) (s : State) : Result :=
  .next <| s.withReg r fun i => if s.fl = flEqual then s.advance 1 else s.redirect (s.reg i)

end Sys2Proof.Machine
end

