-- ==== Sys2Proof/Machine/Data.lean ====
section
/-! DEFINITION. Data movement and system: LDI, PRN, HLT (spec/44_data_system.md R140 to R142). -/

namespace Sys2Proof.Machine

/-- LDI (R140): the immediate is the operand byte itself (R65). -/
def execLdi (r imm : Byte) (s : State) : Result :=
  .next <| s.withReg r fun i => (s.setReg i imm).advance 2

/-- PRN (R141): one byte is appended to the output channel. -/
def execPrn (r : Byte) (s : State) : Result :=
  .next <| s.withReg r fun i => (s.emitOut (s.reg i)).advance 1

/-- HLT (R142): the clean stop; the generic advance still applies. -/
def execHlt (s : State) : Result :=
  .next (s.halt.advance 0)

end Sys2Proof.Machine
end

