-- ==== Sys2Proof/Machine/Stack.lean ====
section
/-! DEFINITION. PUSH and POP (spec/41_stack.md R100 to R103). -/

namespace Sys2Proof.Machine

/-- PUSH (R102): `push(x[r])`, the register read after the decrement, so `PUSH R7` stores the decremented SP. -/
def execPush (r : Byte) (s : State) : Result :=
  .next <| s.withReg r fun i => s.checkPush ((s.push fun t => t.reg i).advance 1)

/-- POP (R103): `pop(x[r])`, then the advance, which a faulting pop skips (R152). -/
def execPop (r : Byte) (s : State) : Result :=
  .next <| s.withReg r fun i => s.pop (some i) fun t v => (t.setReg i v).advance 1

end Sys2Proof.Machine
end

