-- ==== Sys2Proof/Syntax.lean ====
section
/-! DEFINITION. The instructions of the CA-One core, one constructor per row of spec/opcode_table.json
(spec/30_encoding.md R63, R66). -/

namespace Sys2Proof

/-- An instruction with its operand bytes in encoding order (byte 1, then byte 2; R63). A register operand is the
WHOLE operand byte, not a 3-bit index: R64 makes a byte of 8 or more a `BAD_REG` fault of the instruction that
carries it, so such an instruction exists, decodes and has a meaning (the fault). `Instr.wellFormed` says which
instructions have register operands in 0..7. -/
inductive Instr where
  | hlt                      -- R142, format F0
  | ret                      -- R131, format F0
  | prn (r : Byte)           -- R141, format R
  | call (r : Byte)          -- R130, format R
  | pop (r : Byte)           -- R103, format R
  | push (r : Byte)          -- R102, format R
  | jmp (r : Byte)           -- R135, format R
  | jeq (r : Byte)           -- R133, format R
  | jne (r : Byte)           -- R134, format R
  | inc (r : Byte)           -- R114, format R
  | dec (r : Byte)           -- R115, format R
  | ldi (r imm : Byte)       -- R140, format RI
  | cmp (a b : Byte)         -- R116, format RR
  | add (a b : Byte)         -- R111, format RR
  | mul (a b : Byte)         -- R112, format RR
  | div (a b : Byte)         -- R113, format RR
  deriving DecidableEq, Repr

/-- The four formats of R63. -/
inductive Format where
  | f0 | r | ri | rr
  deriving DecidableEq, Repr

/-- The format of each instruction (R63, R66). -/
def Instr.format : Instr → Format
  | .hlt => .f0
  | .ret => .f0
  | .prn _ => .r
  | .call _ => .r
  | .pop _ => .r
  | .push _ => .r
  | .jmp _ => .r
  | .jeq _ => .r
  | .jne _ => .r
  | .inc _ => .r
  | .dec _ => .r
  | .ldi _ _ => .ri
  | .cmp _ _ => .rr
  | .add _ _ => .rr
  | .mul _ _ => .rr
  | .div _ _ => .rr

/-- The operand bytes that are register indices, in the order R83 checks them (`ra`, then `rb`); LDI's immediate
is none of them. -/
def Instr.regOperands : Instr → List Byte
  | .hlt => []
  | .ret => []
  | .prn r => [r]
  | .call r => [r]
  | .pop r => [r]
  | .push r => [r]
  | .jmp r => [r]
  | .jeq r => [r]
  | .jne r => [r]
  | .inc r => [r]
  | .dec r => [r]
  | .ldi r _ => [r]
  | .cmp a b => [a, b]
  | .add a b => [a, b]
  | .mul a b => [a, b]
  | .div a b => [a, b]

end Sys2Proof
end

