-- ==== Sys2Proof/WellFormed.lean ====
section
/-! DEFINITION. Which instructions are well formed: every register operand byte is 0..7 (spec/30_encoding.md R64). -/

namespace Sys2Proof

/-- R64: the valid values of a register operand byte are 0..7. The byte is not masked. -/
def validRegByte (b : Byte) : Bool := b.toNat < 8

/-- An instruction is well formed when every register operand is valid. R65, R68: nothing else in an instruction
is reserved (an immediate may be any of 0..255). -/
def Instr.wellFormed (i : Instr) : Bool := i.regOperands.all validRegByte

end Sys2Proof
end

