-- ==== Sys2Proof/Decode.lean ====
section
/-! DEFINITION. The decoder, total on any bytes, and the encoder (spec/30_encoding.md R60 to R68,
spec/40_dispatcher.md R81 to R83). -/

namespace Sys2Proof

/-- Why bytes are not an instruction. -/
inductive Reject where
  /-- The bytes end before byte `k` of the instruction (0: the opcode; 1, 2: an operand byte it uses). The fetch
  turns it into `ADDR_FAULT(FETCH, pc + k)` (R82). -/
  | missingByte (k : Nat)
  /-- The opcode byte is no row of R66: the soft failure of R86. -/
  | unknownOpcode (op : Byte)
  deriving DecidableEq, Repr

/-- What the decoder answers: an instruction and the bytes after it, or a named rejection. -/
inductive Decoded where
  | ok (i : Instr) (rest : List Byte)
  | reject (r : Reject)
  deriving DecidableEq, Repr

/-- The operand count `N`: bits 7:6 of an opcode byte (R61). -/
def operandCount (op : Byte) : Nat := (op.extractLsb 7 6).toNat

/-- A format with one operand byte (R63: R). -/
def decodeOne (mk : Byte → Instr) : List Byte → Decoded
  | [] => .reject (.missingByte 1)
  | a :: rest => .ok (mk a) rest

/-- A format with two operand bytes (R63: RI, RR); the missing byte of lower index is the one named (R82). -/
def decodeTwo (mk : Byte → Byte → Instr) : List Byte → Decoded
  | [] => .reject (.missingByte 1)
  | [_] => .reject (.missingByte 2)
  | a :: b :: rest => .ok (mk a b) rest

/-- Decoding compares the WHOLE opcode byte with the opcode map of R66 (90_conflicts.md C2); an unknown byte is
rejected before any operand byte is looked at (R83, R86). -/
def decode : List Byte → Decoded
  | [] => .reject (.missingByte 0)
  | op :: rest =>
    match op.toNat with
    | 1 => .ok .hlt rest
    | 9 => .ok .ret rest
    | 67 => decodeOne .prn rest
    | 72 => decodeOne .call rest
    | 76 => decodeOne .pop rest
    | 77 => decodeOne .push rest
    | 80 => decodeOne .jmp rest
    | 81 => decodeOne .jeq rest
    | 82 => decodeOne .jne rest
    | 120 => decodeOne .inc rest
    | 121 => decodeOne .dec rest
    | 153 => decodeTwo .ldi rest
    | 160 => decodeTwo .cmp rest
    | 168 => decodeTwo .add rest
    | 170 => decodeTwo .mul rest
    | 171 => decodeTwo .div rest
    | _ => .reject (.unknownOpcode op)

/-- The opcode byte of each instruction (R66's binary column). -/
def opcodeByte : Instr → Byte
  | .hlt => 0b00000001
  | .ret => 0b00001001
  | .prn _ => 0b01000011
  | .call _ => 0b01001000
  | .pop _ => 0b01001100
  | .push _ => 0b01001101
  | .jmp _ => 0b01010000
  | .jeq _ => 0b01010001
  | .jne _ => 0b01010010
  | .inc _ => 0b01111000
  | .dec _ => 0b01111001
  | .ldi _ _ => 0b10011001
  | .cmp _ _ => 0b10100000
  | .add _ _ => 0b10101000
  | .mul _ _ => 0b10101010
  | .div _ _ => 0b10101011

/-- The operand bytes of each instruction, in encoding order (R63). -/
def operandBytes : Instr → List Byte
  | .hlt => []
  | .ret => []
  | .prn r => [r]
  | .call r => [r]
  | .pop r => [r]
  | .push r => [r]
  | .jmp r => [r]
  | .jeq r => [r]
  | .jne r => [r]
  | .inc r => [r]
  | .dec r => [r]
  | .ldi r imm => [r, imm]
  | .cmp a b => [a, b]
  | .add a b => [a, b]
  | .mul a b => [a, b]
  | .div a b => [a, b]

/-- The bytes of an instruction (R60): the opcode byte, then its operand bytes. -/
def encode (i : Instr) : List Byte := opcodeByte i :: operandBytes i

/-- The three bytes of an opcode-table word: byte `k` is bits `8k+7..8k` of `w` cut to `nbits` bits (the table
numbers bit 0 as the least significant bit of the first byte); the bytes above are 0. Three is the longest
instruction (R60). -/
def tableBytes (nbits w : Nat) : List Byte :=
  let v := w % 2 ^ nbits
  [BitVec.ofNat 8 v, BitVec.ofNat 8 (v / 256), BitVec.ofNat 8 (v / 65536)]

/-- The instruction the decoder reads from an opcode-table word. -/
def decodeTableWord (nbits w : Nat) : Option Instr :=
  match decode (tableBytes nbits w) with
  | .ok i _ => some i
  | .reject _ => none

/-- A register name of the assembly notation, `R0` to `R7`; none for a byte that names no register (R69). -/
def regName? (b : Byte) : Option String :=
  if b.toNat < 8 then some ("R" ++ toString b.toNat) else none

/-- The spec's own assembly notation of an instruction (R69: mnemonic in capitals, operands in encoding order
separated by a comma, an immediate in decimal); none where a register byte names no register. -/
def asm? : Instr → Option String
  | .hlt => some "HLT"
  | .ret => some "RET"
  | .prn r => (regName? r).map ("PRN " ++ ·)
  | .call r => (regName? r).map ("CALL " ++ ·)
  | .pop r => (regName? r).map ("POP " ++ ·)
  | .push r => (regName? r).map ("PUSH " ++ ·)
  | .jmp r => (regName? r).map ("JMP " ++ ·)
  | .jeq r => (regName? r).map ("JEQ " ++ ·)
  | .jne r => (regName? r).map ("JNE " ++ ·)
  | .inc r => (regName? r).map ("INC " ++ ·)
  | .dec r => (regName? r).map ("DEC " ++ ·)
  | .ldi r imm => (regName? r).map ("LDI " ++ · ++ ", " ++ toString imm.toNat)
  | .cmp a b => asmTwo "CMP " a b
  | .add a b => asmTwo "ADD " a b
  | .mul a b => asmTwo "MUL " a b
  | .div a b => asmTwo "DIV " a b
where
  /-- The two-register form of the notation. -/
  asmTwo (name : String) (a b : Byte) : Option String := do
    return name ++ (← regName? a) ++ ", " ++ (← regName? b)

end Sys2Proof
end

