-- ==== Sys2Proof/Machine/Fetch.lean ====
section
/-! DEFINITION. The fetch, and what a step does when the fetched bytes are not an instruction
(spec/40_dispatcher.md R81, R82, R86). -/

namespace Sys2Proof.Machine

/-- The bytes at `pc`, `pc + 1` and `pc + 2` that lie inside memory (R81, R82): fewer than three near the top, none
for `pc > 255`. A read has no side effect (R45), so looking at a byte the instruction does not use is not
observable (R81); the decoder asks only for the bytes it uses. -/
def State.fetchBytes (s : State) : List Byte :=
  ([0, 1, 2].filter fun k => decide (s.pc.toNat + k < Config.memSize)).map fun k =>
    s.readByte (BitVec.ofNat 8 (s.pc.toNat + k))

/-- Fetch and decode (R81 to R83). -/
def State.fetch (s : State) : Decoded := decode s.fetchBytes

/-- A byte the instruction needs lies past 255: `ADDR_FAULT(FETCH, pc + k)` (R82). An unrecognized opcode: the soft
failure (R86). -/
def State.takeReject (s : State) : Reject → State
  | .missingByte k => s.takeFault (.addrFault .fetch s.pc (s.pc.toNat + k))
  | .unknownOpcode op => s.softFail op (operandCount op)

/-- A step asked of a core that is not RUNNING: nothing happens (R80, R173; log entry 4). -/
def State.idle (s : State) : State := s

/-- Store bytes from an address on, as far as memory reaches: the loader's pokes of consecutive bytes. -/
def State.storeBytes (s : State) (a : Nat) : List Byte → State
  | [] => s
  | v :: vs =>
    (if a < Config.memSize then s.writeByte (BitVec.ofNat 8 a) v else s).storeBytes (a + 1) vs

end Sys2Proof.Machine
end

