-- ==== Sys2Proof/Machine/Step.lean ====
section
/-! DEFINITION. One step (spec/40_dispatcher.md R80 to R88). -/

namespace Sys2Proof.Machine

/-- One step (R88): while RUNNING, fetch and decode, then the instruction's meaning, or the fault or soft failure of
the fetch; a core that is HALTED or FAULTED has no step and nothing happens (R80, R173). -/
def step (s : State) : Host.Outcome State Fault Refusal :=
  match s.status with
  | .running =>
    match s.fetch with
    | .ok i _ => exec i s
    | .reject r => .next (s.takeReject r)
  | .halted => .next s.idle
  | .faulted _ => .next s.idle

/-- `s` with an opcode-table word stored where the next step fetches: at `pc`, `pc + 1` and `pc + 2` (as far as
memory reaches). It stands for the loader's pokes (R172; log entry 5). -/
def State.withFetchWord (s : State) (nbits w : Nat) : State :=
  s.storeBytes s.pc.toNat (tableBytes nbits w)

end Sys2Proof.Machine
end

