-- ==== Sys2Proof/Machine/StepInterface.lean ====
section
/-! DEFINITION. The host's operations on the core (spec/70_reset_and_hazards.md R172 to R174): `poke` and the launch,
`run_until_halt`, and the observable result of a run. -/

namespace Sys2Proof.Machine

/-- `poke(addr, v)` (R173): a direct byte write, used only before the first step (R172, D16). -/
def State.poke (s : State) (a v : Byte) : State := s.writeByte a v

/-- Boot (R172): a fresh core, then the loader's pokes in order. -/
def launch (image : List (Byte × Byte)) : State :=
  image.foldl (fun s c => s.poke c.1 c.2) State.reset

/-- `run_until_halt()` (R173): repeat `step()` while RUNNING, for at most `fuel` steps; none if the run has not
ended by then (a run may be a hang, R174). -/
def runUntilHalt : Nat → State → Option State
  | 0, s => if s.status = .running then none else some s
  | n + 1, s =>
    if s.status = .running then
      match step s with
      | .next t => runUntilHalt n t
      | .fault _ => none
      | .refused _ => none
    else some s

/-- The observable result of a finished run beside the final registers, `pc`, `FL` and memory (R174). -/
structure RunResult where
  out : List Byte
  diag : List Diag
  status : RunStatus
  exitStatus : Int
  deriving DecidableEq, Repr

/-- Read the result (R174); none while RUNNING, when there is none and the exit status is unspecified (R28). -/
def State.result? (s : State) : Option RunResult :=
  if s.status = .running then none
  else some { out := s.out, diag := s.diag, status := s.status, exitStatus := s.exitStatus }

end Sys2Proof.Machine
end

