-- ==== Sys2Proof/Safety.lean ====
section
/-! DEFINITION. The words claims are stated in: the invariant, frames, and what a safe run is. -/

namespace Sys2Proof.Machine

/-- The run status, the exit status and the last diagnostic record tell one story (R28, R152). -/
def State.StatusAgrees (s : State) : Prop :=
  match s.status with
  | .running => True
  | .halted => s.exitStatus = 0
  | .faulted f => s.exitStatus = Config.fatalStatus ∧ s.diag.getLast? = some (.fatal f) ∧ f.pcFetch = s.pc

/-- The invariant of R31: `pc` is in 0..259 and `FL` in {0, 1, 2, 4} (registers are in 0..255 by their type). -/
structure State.Inv (s : State) : Prop where
  pc_le : s.pc.toNat ≤ 259
  fl_mem : s.fl ∈ [0, 1, 2, 4]

/-- The model's own invariant: memory is in canonical form, and the run status, the exit status and the diagnostic
channel agree. -/
structure State.Consistent (s : State) : Prop where
  mem_wf : s.mem.wf
  status_agrees : s.StatusAgrees

/-- Every register but those listed holds the same value. -/
def RegsKeptBut (ds : List Reg) (s t : State) : Prop := ∀ j, j ∉ ds → t.reg j = s.reg j

/-- Every address reads as before. -/
def MemKept (s t : State) : Prop := ∀ a, t.readByte a = s.readByte a

/-- Every address but `a` reads as before. -/
def MemKeptBut (a : Byte) (s t : State) : Prop := ∀ b, b ≠ a → t.readByte b = s.readByte b

/-- The run status, the exit status and the diagnostic channel are untouched, or `t` is `s` with a fatal fault taken
(R152), which changes those three and nothing else. -/
def StatusKeptOrFault (s t : State) : Prop :=
  (t.status = s.status ∧ t.exitStatus = s.exitStatus ∧ t.diag = s.diag) ∨ ∃ f, t = s.takeFault f

/-- The instruction the next step runs, if the bytes at `pc` are one. -/
def State.nextInstr? (s : State) : Option Instr :=
  match s.fetch with
  | .ok i _ => some i
  | .reject _ => none

/-- The bytes `bs` stand in memory from `pc` on, all inside the address space. -/
def State.BytesAtPc (s : State) (bs : List Byte) : Prop :=
  s.pc.toNat + bs.length ≤ Config.memSize ∧
    ∀ k (h : k < bs.length), s.readByte (BitVec.ofNat 8 (s.pc.toNat + k)) = bs[k]

/-- Every running state that fetches the opcode byte `op` so near the top that a used operand byte lies past 255
takes `ADDR_FAULT(FETCH, 256)` (R82: the lowest such address, which is 256 for every opcode). -/
def FetchFaultsPastTop (op : Byte) : Prop :=
  ∀ s : State, s.status = .running → s.pc.toNat ≤ 255 → s.readByte (BitVec.ofNat 8 s.pc.toNat) = op →
    255 < s.pc.toNat + operandCount op → step s = .next (s.takeFault (.addrFault .fetch s.pc 256))

/-- A one-register instruction takes BAD_REG on every register byte of 8 or more (R64, R83). -/
def BadRegOne (mk : Byte → Instr) : Prop :=
  ∀ (r : Byte) (s : State), 7 < r.toNat → exec (mk r) s = .next (s.takeFault (.badReg s.pc r))

/-- A two-register instruction takes BAD_REG on `ra` first, then on `rb` (R64, R83). -/
def BadRegTwo (mk : Byte → Byte → Instr) : Prop :=
  ∀ (a b : Byte) (s : State),
    (7 < a.toNat → exec (mk a b) s = .next (s.takeFault (.badReg s.pc a))) ∧
    (a.toNat ≤ 7 → 7 < b.toNat → exec (mk a b) s = .next (s.takeFault (.badReg s.pc b)))

/-- The recognized opcode values (R66); every other byte value is unrecognized (R67). -/
def opcodeValues : List Nat := [1, 9, 67, 72, 76, 77, 80, 81, 82, 120, 121, 153, 160, 168, 170, 171]

/-- The PC-redirecting instructions (R85): CALL, RET, JMP, and JEQ or JNE when taken. -/
def Redirects (i : Instr) (s : State) : Prop :=
  match i with
  | .call _ => True
  | .ret => True
  | .jmp _ => True
  | .jeq _ => s.fl = 1
  | .jne _ => s.fl ≠ 1
  | .hlt => False
  | .prn _ => False
  | .pop _ => False
  | .push _ => False
  | .inc _ => False
  | .dec _ => False
  | .ldi _ _ => False
  | .cmp _ _ => False
  | .add _ _ => False
  | .mul _ _ => False
  | .div _ _ => False

/-- The run so far has met no fatal fault (R152). -/
def State.FaultFree (s : State) : Prop := ∀ f, s.status ≠ .faulted f

/-- The run so far has met no unrecognized opcode (R155; D8: "no fault" does not imply it). -/
def State.NoUnknownOpcode (s : State) : Prop := ∀ op pc, Diag.unknownOpcode op pc ∉ s.diag

/-- A safe run of `n` steps from `s`: it meets no fatal fault and no unrecognized opcode. -/
def SafeRun (n : Nat) (s : State) : Prop :=
  ∃ t, Host.Core.run core n s = .next t ∧ t.FaultFree ∧ t.NoUnknownOpcode

end Sys2Proof.Machine
end

