-- ==== Sys2Proof/Certificates/Slice0/Obligations.lean ====
section
/-! DEFINITION. The statements for the provers. A register operand 0..7 is written `regByte i` for a register `i`;
`regByte` reaches exactly the bytes 0..7. Each statement of an instruction's result is also the statement that it
completes. Where a rule's own faults are part of it, `BadRegOne`, `BadRegTwo` and `FetchFaultsPastTop` say them. -/

open Sys2Proof Sys2Proof.Machine

/-! ## ALU -/

/-- R111. -/
def Obligations.AddWritesSumMod256 : Prop :=
  (∀ a b, encode (.add a b) = [168, a, b]) ∧ BadRegTwo .add ∧ FetchFaultsPastTop 168 ∧
  ∀ (i j : Reg) (s : State), s.pc.toNat ≤ 255 →
    ∃ t, exec (.add (regByte i) (regByte j)) s = .next t ∧
      (t.reg i).toNat = ((s.reg i).toNat + (s.reg j).toNat) % 256 ∧
      t.pc.toNat = s.pc.toNat + 3 ∧ t.fl = s.fl

/-- R112. -/
def Obligations.MulWritesProductMod256 : Prop :=
  (∀ a b, encode (.mul a b) = [170, a, b]) ∧ BadRegTwo .mul ∧ FetchFaultsPastTop 170 ∧
  ∀ (i j : Reg) (s : State), s.pc.toNat ≤ 255 →
    ∃ t, exec (.mul (regByte i) (regByte j)) s = .next t ∧
      (t.reg i).toNat = ((s.reg i).toNat * (s.reg j).toNat) % 256 ∧
      t.pc.toNat = s.pc.toNat + 3 ∧ t.fl = s.fl

/-- DIV (R113). The divisor 0 takes the fatal fault, which writes no register and leaves `pc` (BAD_REG and the fetch
faults come before it). That the fault records the operand bytes as `a` and `b` is the model's reading (DEDUCED, log
entry 9), from R110 ("`a` is operand byte 1 and `b` is operand byte 2") and program P2. -/
def Obligations.DivWritesQuotientOrFaultsOnZero : Prop :=
  (∀ a b, encode (.div a b) = [171, a, b]) ∧ BadRegTwo .div ∧ FetchFaultsPastTop 171 ∧
  ∀ (i j : Reg) (s : State),
    (s.reg j = 0 → exec (.div (regByte i) (regByte j)) s =
      .next (s.takeFault (.divByZero s.pc (regByte i) (regByte j)))) ∧
    (s.reg j ≠ 0 → s.pc.toNat ≤ 255 →
      ∃ t, exec (.div (regByte i) (regByte j)) s = .next t ∧
        (t.reg i).toNat = (s.reg i).toNat / (s.reg j).toNat ∧
        t.pc.toNat = s.pc.toNat + 3 ∧ t.fl = s.fl)

/-- R114. R7 is no exception: no stack check. -/
def Obligations.IncAddsOneMod256 : Prop :=
  (∀ r, encode (.inc r) = [120, r]) ∧ BadRegOne .inc ∧ FetchFaultsPastTop 120 ∧
  ∀ (i : Reg) (s : State), s.pc.toNat ≤ 255 →
    ∃ t, exec (.inc (regByte i)) s = .next t ∧
      (t.reg i).toNat = ((s.reg i).toNat + 1) % 256 ∧ t.pc.toNat = s.pc.toNat + 2 ∧ t.fl = s.fl

/-- R115: in the integers, `(x - 1) mod 256`. -/
def Obligations.DecSubtractsOneMod256 : Prop :=
  (∀ r, encode (.dec r) = [121, r]) ∧ BadRegOne .dec ∧ FetchFaultsPastTop 121 ∧
  ∀ (i : Reg) (s : State), s.pc.toNat ≤ 255 →
    ∃ t, exec (.dec (regByte i)) s = .next t ∧
      ((t.reg i).toNat : Int) = ((s.reg i).toNat - 1 : Int) % 256 ∧ t.pc.toNat = s.pc.toNat + 2 ∧ t.fl = s.fl

/-- R116: unsigned, all of `FL` overwritten, no register written. -/
def Obligations.CmpSetsExactlyOneOutcome : Prop :=
  (∀ a b, encode (.cmp a b) = [160, a, b]) ∧ BadRegTwo .cmp ∧ FetchFaultsPastTop 160 ∧
  ∀ (i j : Reg) (s : State), s.pc.toNat ≤ 255 →
    ∃ t, exec (.cmp (regByte i) (regByte j)) s = .next t ∧
      ((s.reg i).toNat = (s.reg j).toNat → t.fl = 1) ∧
      ((s.reg j).toNat < (s.reg i).toNat → t.fl = 2) ∧
      ((s.reg i).toNat < (s.reg j).toNat → t.fl = 4) ∧
      (∀ k, t.reg k = s.reg k) ∧ t.pc.toNat = s.pc.toNat + 3

/-! ## Stack -/

/-- R102, with the push primitive of R100: SP = 0 takes the STACK fault; else SP goes down by 1 and the new top holds
the register's value, read after the decrement (so `PUSH R7` stores the decremented SP). -/
def Obligations.PushStoresBelowSpOrFaults : Prop :=
  (∀ r, encode (.push r) = [77, r]) ∧ BadRegOne .push ∧ FetchFaultsPastTop 77 ∧
  ∀ (i : Reg) (s : State),
    (s.sp = 0 → exec (.push (regByte i)) s = .next (s.takeFault (.addrFault .stack s.pc 0))) ∧
    (s.sp ≠ 0 → s.pc.toNat ≤ 255 →
      ∃ t, exec (.push (regByte i)) s = .next t ∧
        t.sp.toNat = s.sp.toNat - 1 ∧
        t.readByte t.sp = (if i = 7 then t.sp else s.reg i) ∧
        t.pc.toNat = s.pc.toNat + 2 ∧ t.fl = s.fl)

/-- R103, with the pop primitive of R101: the fault is decided on the incremented SP, which for `POP R7` is the
popped byte + 1. -/
def Obligations.PopLoadsFromSpOrFaults : Prop :=
  (∀ r, encode (.pop r) = [76, r]) ∧ BadRegOne .pop ∧ FetchFaultsPastTop 76 ∧
  ∀ (i : Reg) (s : State) (v : Byte) (after : Nat), v = s.readByte s.sp →
    after = (if i = 7 then v else s.sp).toNat + 1 →
    (255 < after →
      exec (.pop (regByte i)) s = .next (s.takeFault (.addrFault .stack s.pc s.sp.toNat))) ∧
    (after ≤ 255 → s.pc.toNat ≤ 255 →
      ∃ t, exec (.pop (regByte i)) s = .next t ∧
        (i ≠ 7 → t.reg i = v) ∧ t.sp.toNat = after ∧ t.readByte s.sp = v ∧
        t.pc.toNat = s.pc.toNat + 2 ∧ t.fl = s.fl)

/-! ## Control transfer -/

/-- R130: STACK before RETURN_ADDRESS; the return address `pc + 2` goes to the new top; the target is read after the
decrement (so `CALL R7` jumps to the decremented SP). -/
def Obligations.CallPushesReturnAddressAndJumps : Prop :=
  (∀ r, encode (.call r) = [72, r]) ∧ BadRegOne .call ∧ FetchFaultsPastTop 72 ∧
  ∀ (i : Reg) (s : State),
    (s.sp = 0 → exec (.call (regByte i)) s = .next (s.takeFault (.addrFault .stack s.pc 0))) ∧
    (s.sp ≠ 0 → 255 < s.pc.toNat + 2 → exec (.call (regByte i)) s =
      .next (s.takeFault (.addrFault .returnAddress s.pc (s.pc.toNat + 2)))) ∧
    (s.sp ≠ 0 → s.pc.toNat + 2 ≤ 255 →
      ∃ t, exec (.call (regByte i)) s = .next t ∧
        t.sp.toNat = s.sp.toNat - 1 ∧ (t.readByte t.sp).toNat = s.pc.toNat + 2 ∧
        t.pc.toNat = (if i = 7 then t.sp else s.reg i).toNat ∧ t.fl = s.fl)

/-- R131: SP rises by exactly 1. RET has no operand byte, so the only fetch fault is that of R82 for `pc > 255`. -/
def Obligations.RetPopsPc : Prop :=
  encode .ret = [9] ∧
  (∀ s : State, s.status = .running → 255 < s.pc.toNat →
    step s = .next (s.takeFault (.addrFault .fetch s.pc s.pc.toNat))) ∧
  ∀ s : State,
    (s.sp.toNat = 255 → exec .ret s = .next (s.takeFault (.addrFault .stack s.pc 255))) ∧
    (s.sp.toNat < 255 →
      ∃ t, exec .ret s = .next t ∧ t.pc.toNat = (s.readByte s.sp).toNat ∧
        t.sp.toNat = s.sp.toNat + 1 ∧ t.fl = s.fl)

/-- R135. -/
def Obligations.JmpGoesToRegister : Prop :=
  (∀ r, encode (.jmp r) = [80, r]) ∧ BadRegOne .jmp ∧ FetchFaultsPastTop 80 ∧
  ∀ (i : Reg) (s : State),
    ∃ t, exec (.jmp (regByte i)) s = .next t ∧ t.pc.toNat = (s.reg i).toNat ∧ t.fl = s.fl

/-- R133: taken exactly when `FL` = 1; the operand is checked in both cases (`BadRegOne`). -/
def Obligations.JeqBranchesIffEqual : Prop :=
  (∀ r, encode (.jeq r) = [81, r]) ∧ BadRegOne .jeq ∧ FetchFaultsPastTop 81 ∧
  ∀ (i : Reg) (s : State), s.pc.toNat ≤ 255 →
    ∃ t, exec (.jeq (regByte i)) s = .next t ∧
      (s.fl = 1 → t.pc.toNat = (s.reg i).toNat) ∧ (s.fl ≠ 1 → t.pc.toNat = s.pc.toNat + 2) ∧ t.fl = s.fl

/-- R134: taken exactly when `FL` is not 1, so also before any compare. -/
def Obligations.JneBranchesIffNotEqual : Prop :=
  (∀ r, encode (.jne r) = [82, r]) ∧ BadRegOne .jne ∧ FetchFaultsPastTop 82 ∧
  ∀ (i : Reg) (s : State), s.pc.toNat ≤ 255 →
    ∃ t, exec (.jne (regByte i)) s = .next t ∧
      (s.fl ≠ 1 → t.pc.toNat = (s.reg i).toNat) ∧ (s.fl = 1 → t.pc.toNat = s.pc.toNat + 2) ∧ t.fl = s.fl

/-! ## Data movement and system -/

/-- R140: the immediate is any byte, never checked. -/
def Obligations.LdiLoadsImmediate : Prop :=
  (∀ r imm, encode (.ldi r imm) = [153, r, imm]) ∧ FetchFaultsPastTop 153 ∧
  (∀ (r imm : Byte) (s : State), 7 < r.toNat → exec (.ldi r imm) s = .next (s.takeFault (.badReg s.pc r))) ∧
  ∀ (i : Reg) (imm : Byte) (s : State), s.pc.toNat ≤ 255 →
    ∃ t, exec (.ldi (regByte i) imm) s = .next t ∧ t.reg i = imm ∧ t.pc.toNat = s.pc.toNat + 3 ∧ t.fl = s.fl

/-- R141: one byte is appended to the output; no register and no memory byte is written. -/
def Obligations.PrnAppendsRegisterToOutput : Prop :=
  (∀ r, encode (.prn r) = [67, r]) ∧ BadRegOne .prn ∧ FetchFaultsPastTop 67 ∧
  ∀ (i : Reg) (s : State), s.pc.toNat ≤ 255 →
    ∃ t, exec (.prn (regByte i)) s = .next t ∧ t.out = s.out ++ [s.reg i] ∧
      (∀ k, t.reg k = s.reg k) ∧ MemKept s t ∧ t.pc.toNat = s.pc.toNat + 2 ∧ t.fl = s.fl

/-- R142: the clean halt with exit status 0; the advance still applies (from 255 to 256). Its only fetch fault is the
opcode's own, for `pc > 255`; after it no state changes. -/
def Obligations.HltHaltsCleanly : Prop :=
  encode .hlt = [1] ∧
  (∀ s : State, s.status = .running → 255 < s.pc.toNat →
    step s = .next (s.takeFault (.addrFault .fetch s.pc s.pc.toNat))) ∧
  ∀ s : State, s.pc.toNat ≤ 255 →
    ∃ t, exec .hlt s = .next t ∧ t.status = .halted ∧ t.exitStatus = 0 ∧ t.pc.toNat = s.pc.toNat + 1 ∧
      t.fl = s.fl ∧ ∀ u, step t = .next u → u = t

/-! ## Frames -/

/-- What LDI and the register-writing ALU instructions leave unchanged, in every form: every register but the one
the operand byte `a` names, FL, the output and every byte of memory; the run status, the exit status and the
diagnostic channel unless a fatal fault is taken. -/
def Obligations.RegisterResultFrame : Prop :=
  ∀ (a b : Byte) (s t : State),
    ∀ i ∈ [Instr.add a b, .mul a b, .div a b, .inc a, .dec a, .ldi a b], exec i s = .next t →
      (∀ k, regByte k ≠ a → t.reg k = s.reg k) ∧ t.fl = s.fl ∧ t.out = s.out ∧ MemKept s t ∧
        StatusKeptOrFault s t

/-- What CMP, PRN and HLT leave unchanged, in every form: every register and every byte of memory; FL but for CMP,
the output but for PRN; the status, exit status and diagnostic channel unless a fault is taken, but for HLT's run
and exit status. -/
def Obligations.CompareOutputHaltFrame : Prop :=
  ∀ (a b : Byte) (s t : State),
    (exec (.cmp a b) s = .next t →
      RegsKeptBut [] s t ∧ t.out = s.out ∧ MemKept s t ∧ StatusKeptOrFault s t) ∧
    (exec (.prn a) s = .next t →
      RegsKeptBut [] s t ∧ t.fl = s.fl ∧ MemKept s t ∧ StatusKeptOrFault s t) ∧
    (exec .hlt s = .next t →
      RegsKeptBut [] s t ∧ t.fl = s.fl ∧ t.out = s.out ∧ MemKept s t ∧ t.diag = s.diag)

/-- What the jumps leave unchanged, in every form: everything but `pc`, and what a fatal fault changes. -/
def Obligations.JumpFrame : Prop :=
  ∀ (r : Byte) (s t : State), ∀ i ∈ [Instr.jmp r, .jeq r, .jne r], exec i s = .next t →
    RegsKeptBut [] s t ∧ t.fl = s.fl ∧ t.out = s.out ∧ MemKept s t ∧ StatusKeptOrFault s t

/-- What the storing instructions leave unchanged, in every form: every register but SP, FL, the output, and every
byte of memory but the one at the address a push stores to, the decremented SP. -/
def Obligations.StoringFrame : Prop :=
  ∀ (r : Byte) (s t : State), ∀ i ∈ [Instr.push r, .call r], exec i s = .next t →
    RegsKeptBut [7] s t ∧ t.fl = s.fl ∧ t.out = s.out ∧ MemKeptBut s.pushAddr s t ∧ StatusKeptOrFault s t

/-- What the stack-reading instructions leave unchanged, in every form: every register but SP and POP's destination,
FL, the output, and every byte of memory. -/
def Obligations.StackReadFrame : Prop :=
  ∀ (r : Byte) (s t : State),
    (exec (.pop r) s = .next t →
      (∀ k, k ≠ 7 → regByte k ≠ r → t.reg k = s.reg k) ∧ t.fl = s.fl ∧ t.out = s.out ∧ MemKept s t ∧
        StatusKeptOrFault s t) ∧
    (exec .ret s = .next t →
      RegsKeptBut [7] s t ∧ t.fl = s.fl ∧ t.out = s.out ∧ MemKept s t ∧ StatusKeptOrFault s t)

/-! ## The dispatcher -/

/-- R88, the step in full: the checks in their order, and last the handler of the instruction whose encoding is the
opcode byte and its operand bytes. -/
def Obligations.StepFollowsTheDispatcher : Prop :=
  ∀ s : State, s.status = .running →
    let at' (k : Nat) : Byte := s.readByte (BitVec.ofNat 8 (s.pc.toNat + k))
    let n := (at' 0).toNat / 64
    (255 < s.pc.toNat → step s = .next (s.takeFault (.addrFault .fetch s.pc s.pc.toNat))) ∧
    (s.pc.toNat ≤ 255 → (at' 0).toNat ∉ opcodeValues → step s = .next (s.softFail (at' 0) n)) ∧
    (s.pc.toNat ≤ 255 → (at' 0).toNat ∈ opcodeValues →
      (∀ k, 1 ≤ k → k ≤ n → 255 < s.pc.toNat + k → (∀ m, m < k → s.pc.toNat + m ≤ 255) →
        step s = .next (s.takeFault (.addrFault .fetch s.pc (s.pc.toNat + k)))) ∧
      (s.pc.toNat + n ≤ 255 →
        ∃ i, encode i = at' 0 :: [at' 1, at' 2].take n ∧
          (i.format ≠ .f0 → 7 < (at' 1).toNat → step s = .next (s.takeFault (.badReg s.pc (at' 1)))) ∧
          (i.format = .rr → (at' 1).toNat ≤ 7 → 7 < (at' 2).toNat →
            step s = .next (s.takeFault (.badReg s.pc (at' 2)))) ∧
          (i.wellFormed = true → step s = exec i s)))

/-- R82. -/
def Obligations.FetchFaultsOffTheTop : Prop :=
  ∀ s : State, s.status = .running →
    (255 < s.pc.toNat → step s = .next (s.takeFault (.addrFault .fetch s.pc s.pc.toNat))) ∧
    ∀ (i : Instr) (k : Nat), s.pc.toNat ≤ 255 → s.readByte (BitVec.ofNat 8 s.pc.toNat) = opcodeByte i →
      1 ≤ k → k ≤ operandCount (opcodeByte i) → 255 < s.pc.toNat + k →
      (∀ m, 1 ≤ m → m < k → s.pc.toNat + m ≤ 255) →
      step s = .next (s.takeFault (.addrFault .fetch s.pc (s.pc.toNat + k)))

/-- R64: a register byte of 8 or more is BAD_REG for every instruction and every register operand of its format, the
first such byte being the one reported; a well-formed instruction never takes it. -/
def Obligations.BadRegisterByteFaultsBeforeAnything : Prop :=
  (∀ (i : Instr) (r : Byte) (s : State),
    i.regOperands.find? (fun b => decide (7 < b.toNat)) = some r →
    exec i s = .next (s.takeFault (.badReg s.pc r))) ∧
  (∀ (i : Instr) (s t : State) (pc : Pc) (r : Byte), i.wellFormed = true → exec i s = .next t →
    t ≠ s.takeFault (.badReg pc r))

/-- R86. -/
def Obligations.UnknownOpcodeIsLoggedAndSkipped : Prop :=
  ∀ (s : State) (op : Byte), s.status = .running → s.pc.toNat ≤ 255 →
    s.readByte (BitVec.ofNat 8 s.pc.toNat) = op → op.toNat ∉ opcodeValues →
    ∃ t, step s = .next t ∧ t.diag = s.diag ++ [.unknownOpcode op s.pc] ∧
      t.pc.toNat = s.pc.toNat + 1 + op.toNat / 64 ∧
      RegsKeptBut [] s t ∧ MemKept s t ∧ t.fl = s.fl ∧ t.status = .running ∧ t.out = s.out ∧
      t.exitStatus = s.exitStatus

/-- R84: unless the instruction redirects or a fatal fault is taken, `pc` goes up by 1 plus bits 7:6 of the opcode
byte, unreduced; this covers untaken branches and unrecognized opcodes. -/
def Obligations.GenericAdvanceByOperandCount : Prop :=
  ∀ s t : State, s.status = .running → step s = .next t →
    (∀ i, s.nextInstr? = some i → ¬ Redirects i s) →
    t.pc.toNat = s.pc.toNat + 1 + (s.readByte (BitVec.ofNat 8 s.pc.toNat)).toNat / 64 ∨
    ∃ f, t = s.takeFault f

/-- When the bytes at `pc` are an instruction's, the step of a running core is that instruction. -/
def Obligations.StepRunsTheInstructionAtPc : Prop :=
  ∀ (i : Instr) (s : State), s.status = .running → s.BytesAtPc (encode i) → step s = exec i s

/-- A word stored where the next step fetches is the instruction that step runs. -/
def Obligations.FetchWordIsRun : Prop :=
  ∀ (s : State) (nbits w : Nat) (i : Instr), s.status = .running → s.pc.toNat ≤ 253 →
    decodeTableWord nbits w = some i →
    step (s.withFetchWord nbits w) = exec i (s.withFetchWord nbits w)

/-! ## Encoding -/

/-- R66: the opcode map, row by row (value, operand count, low six bits, format), and the whole byte is compared:
exactly the other bytes are rejected as unknown. -/
def Obligations.OpcodeMapIsTheTable : Prop :=
  (∀ a b : Byte, ∀ row ∈ ([(.hlt, 1, 0, 1, .f0), (.ret, 9, 0, 9, .f0), (.prn a, 67, 1, 3, .r),
      (.call a, 72, 1, 8, .r), (.pop a, 76, 1, 12, .r), (.push a, 77, 1, 13, .r), (.jmp a, 80, 1, 16, .r),
      (.jeq a, 81, 1, 17, .r), (.jne a, 82, 1, 18, .r), (.inc a, 120, 1, 56, .r), (.dec a, 121, 1, 57, .r),
      (.ldi a b, 153, 2, 25, .ri), (.cmp a b, 160, 2, 32, .rr), (.add a b, 168, 2, 40, .rr),
      (.mul a b, 170, 2, 42, .rr), (.div a b, 171, 2, 43, .rr)] : List (Instr × Nat × Nat × Nat × Format)),
    (opcodeByte row.1).toNat = row.2.1 ∧ operandCount (opcodeByte row.1) = row.2.2.1 ∧
      (opcodeByte row.1).toNat % 64 = row.2.2.2.1 ∧ row.1.format = row.2.2.2.2) ∧
  ∀ (op : Byte) (rest : List Byte),
    decode (op :: rest) = .reject (.unknownOpcode op) ↔ op.toNat ∉ opcodeValues

/-- Decoding and encoding agree, both ways, for every instruction with every operand byte: the decoder reads an
instruction exactly from its own bytes, whatever follows. -/
def Obligations.DecodeIffEncode : Prop :=
  ∀ (bs rest : List Byte) (i : Instr), decode bs = .ok i rest ↔ bs = encode i ++ rest

/-- A few words written out from R66, one per format and family. -/
def Obligations.SomeWordsDecode : Prop :=
  decode [0b00001001] = .ok .ret [] ∧ decode [0b01001101, 3] = .ok (.push 3) [] ∧
  decode [0b01010001, 2] = .ok (.jeq 2) [] ∧ decode [0b10011001, 0, 8] = .ok (.ldi 0 8) [] ∧
  decode [0b10101011, 0, 1] = .ok (.div 0 1) [] ∧ decode [0b01000001, 0] = .reject (.unknownOpcode 0x41)

/-! ## Faults, run status and channels -/

/-- R152: a fatal fault is precise (registers, FL, `pc`, memory and output as before the step), records itself in the
run status and the diagnostic channel, sets the nonzero exit status, and nothing follows it. -/
def Obligations.FatalFaultIsPrecise : Prop :=
  ∀ (s t : State) (f : FatalFault), s.status = .running → step s = .next t → t.status = .faulted f →
    t.regs = s.regs ∧ t.fl = s.fl ∧ t.pc = s.pc ∧ t.mem = s.mem ∧ t.out = s.out ∧
    f.pcFetch = s.pc ∧ t.exitStatus = Config.fatalStatus ∧ Config.fatalStatus ≠ 0 ∧
    t.diag = s.diag ++ [.fatal f] ∧ ∀ u, step t = .next u → u = t

/-- R28: the run ends by HLT with exit status 0 or by a fatal fault with a nonzero one, and nothing sets the status
back to RUNNING. -/
def Obligations.RunEndsOnlyByHltOrFault : Prop :=
  ∀ s t : State, step s = .next t →
    (s.status ≠ .running → t.status = s.status ∧ t.exitStatus = s.exitStatus) ∧
    (s.status = .running → s.nextInstr? = some .hlt → t.status = .halted ∧ t.exitStatus = 0) ∧
    (s.status = .running → s.nextInstr? ≠ some .hlt →
      t.status = .running ∨
        ∃ f, t.status = .faulted f ∧ t.exitStatus = Config.fatalStatus ∧ Config.fatalStatus ≠ 0)

/-- R29: PRN alone appends to `out`, one byte, the register's value; `diag` gets exactly one record for an
unrecognized opcode and for a fatal fault; neither channel ever loses anything; and neither is read back: with other
channel contents the step does the same to everything else. -/
def Obligations.ChannelsOnlyGrowAsStated : Prop :=
  (∀ (s t : State) (out : List Byte) (diag : List Diag), step s = .next t →
    ∃ t', step { s with out := out, diag := diag } = .next t' ∧ t = { t' with out := t.out, diag := t.diag }) ∧
  ∀ s t : State, s.status = .running → step s = .next t →
    (t.out = s.out ∧ (∀ i : Reg, s.nextInstr? ≠ some (.prn (regByte i))) ∨
      ∃ i : Reg, s.nextInstr? = some (.prn (regByte i)) ∧ t.out = s.out ++ [s.reg i]) ∧
    (t.diag = s.diag ∧ (∀ f, t.status ≠ .faulted f) ∧ s.nextInstr?.isSome ∨
      (∃ op, s.fetch = .reject (.unknownOpcode op) ∧ t.diag = s.diag ++ [.unknownOpcode op s.pc]) ∨
      ∃ f, t.status = .faulted f ∧ t.diag = s.diag ++ [.fatal f])

/-- The cause codes of R151's table. -/
def Obligations.CauseCodesAreTheTable : Prop :=
  RunStatus.halted.causeCode? = some 0 ∧ RunStatus.running.causeCode? = none ∧
  ∀ (pc : Pc) (a b : Byte) (n : Nat),
    (RunStatus.faulted (.divByZero pc a b)).causeCode? = some 1 ∧
    (RunStatus.faulted (.addrFault .fetch pc n)).causeCode? = some 2 ∧
    (RunStatus.faulted (.addrFault .stack pc n)).causeCode? = some 3 ∧
    (RunStatus.faulted (.addrFault .returnAddress pc n)).causeCode? = some 4 ∧
    (RunStatus.faulted (.badReg pc a)).causeCode? = some 5 ∧
    (Diag.unknownOpcode a pc).causeCode = 6

/-! ## Whole-machine rules -/

/-- R26: only CMP writes `FL`, and overwrites it whole; only JEQ and JNE read it, and only whether it is 1; nothing
moves it to or from a register or memory (changing `FL` changes nothing else of what any other instruction does). -/
def Obligations.FlagsFlowOnlyFromCmpToBranches : Prop :=
  (∀ s t : State, step s = .next t → t.fl ≠ s.fl → ∃ i j : Reg, s.nextInstr? = some (.cmp (regByte i) (regByte j))) ∧
  (∀ (i j : Reg) (s : State) (f : Byte),
    exec (.cmp (regByte i) (regByte j)) (s.setFl f) = exec (.cmp (regByte i) (regByte j)) s) ∧
  (∀ (i : Instr) (s t : State) (f : Byte), (∀ a b, i ≠ .cmp a b) → exec i s = .next t →
    ((∃ r, i = .jeq r ∨ i = .jne r) → (f = 1 ↔ s.fl = 1)) → exec i (s.setFl f) = .next (t.setFl f))

/-- Only PUSH and CALL change memory, and only the byte at the decremented SP. -/
def Obligations.OnlyPushAndCallStore : Prop :=
  ∀ (s t : State) (a : Byte), step s = .next t → t.readByte a ≠ s.readByte a →
    a = s.pushAddr ∧ ∃ r, s.nextInstr? = some (.push r) ∨ s.nextInstr? = some (.call r)

/-- R31: from every state that meets it, the invariant is kept by every step, and a stopped core changes no more. -/
def Obligations.StepKeepsPcAndFlagsInRange : Prop :=
  ∀ s t : State, s.Inv → step s = .next t → t.Inv ∧ (s.status ≠ .running → t = s)

/-- Every step keeps memory's canonical form and the agreement of run status, exit status and diagnostics. -/
def Obligations.StepKeepsStateConsistent : Prop :=
  ∀ s t : State, s.Consistent → step s = .next t → t.Consistent

/-- Both invariants hold at reset, and after any pokes of the loader. -/
def Obligations.LaunchMeetsTheInvariants : Prop :=
  State.reset.Inv ∧ State.reset.Consistent ∧ ∀ image, (launch image).Inv ∧ (launch image).Consistent

/-- The step of a core that is HALTED or FAULTED changes nothing: the model's reading of R80 and R173, log entry 4. -/
def Obligations.StoppedCoreStaysAsItIs : Prop :=
  ∀ (s : State) (n : Nat), s.status ≠ .running → step s = .next s ∧ Host.Core.run core n s = .next s

/-- R104: PUSH then POP, not through R7. -/
def Obligations.PushThenPopRoundTrip : Prop :=
  ∀ (i j : Reg) (s : State), i ≠ 7 → j ≠ 7 → 1 ≤ s.sp.toNat →
    ∃ t u, exec (.push (regByte i)) s = .next t ∧ exec (.pop (regByte j)) t = .next u ∧
      u.sp = s.sp ∧ u.reg j = s.reg i ∧ (∀ k, k ≠ j → u.reg k = s.reg k) ∧
      u.readByte (s.sp - 1) = s.reg i ∧ ∀ a, a ≠ s.sp - 1 → u.readByte a = s.readByte a

/-- R132: a RET executed with SP and the slot as the CALL left them goes to the instruction after the CALL. -/
def Obligations.CallThenRetReturns : Prop :=
  ∀ (i : Reg) (s : State), s.pc.toNat ≤ 253 → 1 ≤ s.sp.toNat →
    ∃ t, exec (.call (regByte i)) s = .next t ∧
      ∀ u : State, u.sp.toNat = s.sp.toNat - 1 → u.readByte u.sp = t.readByte u.sp →
        ∃ v, exec .ret u = .next v ∧ v.pc.toNat = s.pc.toNat + 2 ∧ v.sp = s.sp ∧
          (v.readByte u.sp).toNat = s.pc.toNat + 2

/-- A byte a PUSH or CALL stores is the byte a fetch of the next step sees at that address. -/
def Obligations.NextFetchSeesTheStore : Prop :=
  ∀ (i : Instr) (r : Reg) (s t : State), i = .push (regByte r) ∨ i = .call (regByte r) →
    s.status = .running → s.BytesAtPc (encode i) → s.sp ≠ 0 → s.pc.toNat ≤ 253 → step s = .next t →
    t.pc.toNat = s.pushAddr.toNat →
    t.fetchBytes.head? = some (if i = .call (regByte r) then BitVec.ofNat 8 (s.pc.toNat + 2)
      else if r = 7 then s.pushAddr else s.reg r)

/-- A CALL whose stack slot is its own operand byte still jumps through the register it named. -/
def Obligations.CallOverItsOwnOperand : Prop :=
  ∀ (i : Reg) (s : State), i ≠ 7 → s.status = .running → s.BytesAtPc [72, regByte i] →
    s.pc.toNat ≤ 253 → s.sp ≠ 0 → s.pushAddr.toNat = s.pc.toNat + 1 →
    ∃ t, step s = .next t ∧ t.pc.toNat = (s.reg i).toNat ∧
      (t.readByte (BitVec.ofNat 8 (s.pc.toNat + 1))).toNat = s.pc.toNat + 2

/-! ## Reset, boot and runs -/

/-- The reset values of the table of 10_state.md section 6 that the spec gives. -/
def Obligations.ResetValues : Prop :=
  (∀ i : Reg, i ≠ 7 → State.reset.reg i = 0) ∧ State.reset.sp = 0xF4 ∧ State.reset.pc = 0 ∧
  State.reset.fl = 0 ∧ State.reset.status = .running ∧ State.reset.out = [] ∧ State.reset.diag = []

/-- The launch image: an address reads as the last byte poked there, and as the launch image's free byte (log entry 1)
where nothing was poked; the pokes change nothing else. -/
def Obligations.LaunchImageIsWhatWasPoked : Prop :=
  ∀ (image : List (Byte × Byte)) (a : Byte),
    (∀ before v after, image = before ++ (a, v) :: after → (∀ c ∈ after, c.1 ≠ a) →
      (launch image).readByte a = v) ∧
    ((∀ c ∈ image, c.1 ≠ a) → (launch image).readByte a = Config.launchByte a) ∧
    ∃ m, launch image = { State.reset with mem := m }

/-- `run_until_halt` answers a state exactly when the run has ended within the fuel, and then the state it ended in.
The fuel is the model's choice (log entry 13). Counting exactly `n` steps, also past the end of the run, rests on a
stopped core's step answering the same state (log entry 4). -/
def Obligations.RunUntilHaltFindsTheFinalState : Prop :=
  ∀ (n : Nat) (s t : State),
    runUntilHalt n s = some t ↔ (Host.Core.run core n s = .next t ∧ t.status ≠ .running)

/-- A JMP to its own address is a hang: every step leaves the state as it is, running. -/
def Obligations.JumpToItselfHangs : Prop :=
  ∀ (i : Reg) (s : State) (n : Nat), s.status = .running → s.BytesAtPc [80, regByte i] →
    (s.reg i).toNat = s.pc.toNat → Host.Core.run core n s = .next s

/-- A core with nothing but unrecognized bytes from `pc` on advances until it is off the top and then takes the FETCH
fault, after at most 257 steps, with one diagnostic record a step and nothing else changed. -/
def Obligations.UnknownBytesRunOffTheTop : Prop :=
  ∀ s : State, s.status = .running →
    (∀ a : Byte, s.pc.toNat ≤ a.toNat → (s.readByte a).toNat ∉ opcodeValues) →
    ∃ (n : Nat) (t : State), n ≤ 257 ∧ Host.Core.run core n s = .next t ∧
      255 < t.pc.toNat ∧ t.status = .faulted (.addrFault .fetch t.pc t.pc.toNat) ∧
      t.diag.length = s.diag.length + n ∧
      t.regs = s.regs ∧ t.fl = s.fl ∧ t.mem = s.mem ∧ t.out = s.out
end

