-- ==== Sys2Proof/Laws/Alu.lean ====
section
/-! SUPPORT. The numeric value of each ALU result (spec/42_alu.md R110 to R115). -/

namespace Sys2Proof.Machine

@[simp] theorem aluAdd_toNat (x y : Byte) : (aluAdd x y).toNat = (x.toNat + y.toNat) % 256 := by
  simp [aluAdd]

@[simp] theorem aluMul_toNat (x y : Byte) : (aluMul x y).toNat = (x.toNat * y.toNat) % 256 := by
  simp [aluMul]

/-- The quotient needs no reduction (R113). -/
@[simp] theorem aluDiv_toNat (x y : Byte) : (aluDiv x y).toNat = x.toNat / y.toNat := by
  have h1 := Nat.div_le_self x.toNat y.toNat
  have h2 := x.isLt
  simp only [aluDiv, BitVec.toNat_ofNat]
  exact Nat.mod_eq_of_lt (by omega)

@[simp] theorem aluInc_toNat (x : Byte) : (aluInc x).toNat = (x.toNat + 1) % 256 := by
  simp [aluInc]

/-- The integer `x - 1`, reduced mod 256: 0 gives 255 (R115). -/
@[simp] theorem aluDec_toNat (x : Byte) : (aluDec x).toNat = (x.toNat + 255) % 256 := by
  have := x.isLt
  simp only [aluDec, BitVec.toNat_ofInt]; omega

end Sys2Proof.Machine
end

