-- ==== Sys2Proof/Laws/Decode.lean ====
section
/-! SUPPORT. The decoder's shape (spec/30_encoding.md R61 to R67). -/

namespace Sys2Proof

/-- `N` is the byte divided by 64 (R61: bits 7:6). -/
theorem operandCount_eq (op : Byte) : operandCount op = op.toNat / 64 := by
  have := op.isLt
  simp [operandCount, Nat.shiftRight_eq_div_pow]; omega

theorem operandCount_le (op : Byte) : operandCount op ≤ 3 := by
  have := op.isLt; rw [operandCount_eq]; omega

/-- All a format with one operand byte can decode to. -/
theorem decodeOne_ok {mk : Byte → Instr} {bs : List Byte} {i : Instr} {rest : List Byte}
    (h : decodeOne mk bs = .ok i rest) : ∃ a, i = mk a ∧ bs = a :: rest := by
  cases bs with
  | nil => cases h
  | cons a bs => cases h; exact ⟨a, rfl, rfl⟩

/-- All a format with two operand bytes can decode to. -/
theorem decodeTwo_ok {mk : Byte → Byte → Instr} {bs : List Byte} {i : Instr} {rest : List Byte}
    (h : decodeTwo mk bs = .ok i rest) : ∃ a b, i = mk a b ∧ bs = a :: b :: rest := by
  match bs, h with
  | [], h => cases h
  | [_], h => cases h
  | a :: b :: bs, h => cases h; exact ⟨a, b, rfl, rfl⟩

theorem decodeOne_ne_unknown {mk : Byte → Instr} {bs : List Byte} {op : Byte} :
    decodeOne mk bs ≠ .reject (.unknownOpcode op) := by
  cases bs <;> simp [decodeOne]

theorem decodeTwo_ne_unknown {mk : Byte → Byte → Instr} {bs : List Byte} {op : Byte} :
    decodeTwo mk bs ≠ .reject (.unknownOpcode op) := by
  match bs with
  | [] => simp [decodeTwo]
  | [_] => simp [decodeTwo]
  | _ :: _ :: _ => simp [decodeTwo]

/-- Decoding looks at the first byte, whole (R66). -/
theorem decode_cons (op : Byte) (rest : List Byte) : decode (op :: rest) = 
    match op.toNat with
    | 1 => .ok .hlt rest
    | 9 => .ok .ret rest
    | 67 => decodeOne .prn rest
    | 72 => decodeOne .call rest
    | 76 => decodeOne .pop rest
    | 77 => decodeOne .push rest
    | 80 => decodeOne .jmp rest
    | 81 => decodeOne .jeq rest
    | 82 => decodeOne .jne rest
    | 120 => decodeOne .inc rest
    | 121 => decodeOne .dec rest
    | 153 => decodeTwo .ldi rest
    | 160 => decodeTwo .cmp rest
    | 168 => decodeTwo .add rest
    | 170 => decodeTwo .mul rest
    | 171 => decodeTwo .div rest
    | _ => .reject (.unknownOpcode op) := rfl

/-- The byte rejected as an unknown opcode is the first one. -/
theorem decode_unknown {bs : List Byte} {op : Byte} (h : decode bs = .reject (.unknownOpcode op)) :
    ∃ rest, bs = op :: rest := by
  cases bs with
  | nil => cases h
  | cons b rest =>
    refine ⟨rest, ?_⟩
    rw [decode_cons] at h
    split at h
    all_goals first
      | (cases h; rfl)
      | exact absurd h decodeOne_ne_unknown
      | exact absurd h decodeTwo_ne_unknown
      | cases h

end Sys2Proof
end

