-- ==== Sys2Proof/Laws/Flags.lean ====
section
/-! SUPPORT. CMP's three outcomes (spec/42_alu.md R116). -/

namespace Sys2Proof.Machine

theorem compareFlags_of_eq {a b : Byte} (h : a = b) : compareFlags a b = 1 := by
  simp [compareFlags, h, flEqual]

theorem compareFlags_of_gt {a b : Byte} (h : b.toNat < a.toNat) : compareFlags a b = 2 := by
  rw [compareFlags, if_neg (by omega), if_pos h, flGreater]

theorem compareFlags_of_lt {a b : Byte} (h : a.toNat < b.toNat) : compareFlags a b = 4 := by
  rw [compareFlags, if_neg (by omega), if_neg (by omega), flLess]

/-- Exactly one outcome, never a combination (R25). -/
theorem compareFlags_mem (a b : Byte) : compareFlags a b ∈ [1, 2, 4] := by
  unfold compareFlags flEqual flGreater flLess
  split
  · simp
  · split <;> simp

end Sys2Proof.Machine
end

