-- ==== Sys2Proof/Laws/State.lean ====
section
/-! SUPPORT. One lemma per field per update of State, so that no proof unfolds a record update. -/

namespace Sys2Proof.Machine

@[simp] theorem State.writeByte_regs (s : State) (a v : Byte) : (s.writeByte a v).regs = s.regs := rfl
@[simp] theorem State.writeByte_pc (s : State) (a v : Byte) : (s.writeByte a v).pc = s.pc := rfl
@[simp] theorem State.writeByte_fl (s : State) (a v : Byte) : (s.writeByte a v).fl = s.fl := rfl
@[simp] theorem State.writeByte_status (s : State) (a v : Byte) : (s.writeByte a v).status = s.status := rfl
@[simp] theorem State.writeByte_exitStatus (s : State) (a v : Byte) : (s.writeByte a v).exitStatus = s.exitStatus := rfl
@[simp] theorem State.writeByte_out (s : State) (a v : Byte) : (s.writeByte a v).out = s.out := rfl
@[simp] theorem State.writeByte_diag (s : State) (a v : Byte) : (s.writeByte a v).diag = s.diag := rfl
@[simp] theorem State.writeByte_mem (s : State) (a v : Byte) : (s.writeByte a v).mem = s.mem.put a.toNat v := rfl

@[simp] theorem State.setReg_regs (s : State) (i : Reg) (v : Byte) : (s.setReg i v).regs = s.regs.set i.val v := rfl
@[simp] theorem State.setReg_pc (s : State) (i : Reg) (v : Byte) : (s.setReg i v).pc = s.pc := rfl
@[simp] theorem State.setReg_fl (s : State) (i : Reg) (v : Byte) : (s.setReg i v).fl = s.fl := rfl
@[simp] theorem State.setReg_status (s : State) (i : Reg) (v : Byte) : (s.setReg i v).status = s.status := rfl
@[simp] theorem State.setReg_exitStatus (s : State) (i : Reg) (v : Byte) : (s.setReg i v).exitStatus = s.exitStatus := rfl
@[simp] theorem State.setReg_out (s : State) (i : Reg) (v : Byte) : (s.setReg i v).out = s.out := rfl
@[simp] theorem State.setReg_diag (s : State) (i : Reg) (v : Byte) : (s.setReg i v).diag = s.diag := rfl
@[simp] theorem State.setReg_mem (s : State) (i : Reg) (v : Byte) : (s.setReg i v).mem = s.mem := rfl

@[simp] theorem State.setSp_regs (s : State) (v : Byte) : (s.setSp v).regs = s.regs.set 7 v := rfl
@[simp] theorem State.setSp_pc (s : State) (v : Byte) : (s.setSp v).pc = s.pc := rfl
@[simp] theorem State.setSp_fl (s : State) (v : Byte) : (s.setSp v).fl = s.fl := rfl
@[simp] theorem State.setSp_status (s : State) (v : Byte) : (s.setSp v).status = s.status := rfl
@[simp] theorem State.setSp_exitStatus (s : State) (v : Byte) : (s.setSp v).exitStatus = s.exitStatus := rfl
@[simp] theorem State.setSp_out (s : State) (v : Byte) : (s.setSp v).out = s.out := rfl
@[simp] theorem State.setSp_diag (s : State) (v : Byte) : (s.setSp v).diag = s.diag := rfl
@[simp] theorem State.setSp_mem (s : State) (v : Byte) : (s.setSp v).mem = s.mem := rfl

@[simp] theorem State.setFl_regs (s : State) (v : Byte) : (s.setFl v).regs = s.regs := rfl
@[simp] theorem State.setFl_pc (s : State) (v : Byte) : (s.setFl v).pc = s.pc := rfl
@[simp] theorem State.setFl_fl (s : State) (v : Byte) : (s.setFl v).fl = v := rfl
@[simp] theorem State.setFl_status (s : State) (v : Byte) : (s.setFl v).status = s.status := rfl
@[simp] theorem State.setFl_exitStatus (s : State) (v : Byte) : (s.setFl v).exitStatus = s.exitStatus := rfl
@[simp] theorem State.setFl_out (s : State) (v : Byte) : (s.setFl v).out = s.out := rfl
@[simp] theorem State.setFl_diag (s : State) (v : Byte) : (s.setFl v).diag = s.diag := rfl
@[simp] theorem State.setFl_mem (s : State) (v : Byte) : (s.setFl v).mem = s.mem := rfl

@[simp] theorem State.advance_regs (s : State) (n : Nat) : (s.advance n).regs = s.regs := rfl
@[simp] theorem State.advance_pc (s : State) (n : Nat) : (s.advance n).pc = BitVec.ofNat 9 (s.pc.toNat + 1 + n) := rfl
@[simp] theorem State.advance_fl (s : State) (n : Nat) : (s.advance n).fl = s.fl := rfl
@[simp] theorem State.advance_status (s : State) (n : Nat) : (s.advance n).status = s.status := rfl
@[simp] theorem State.advance_exitStatus (s : State) (n : Nat) : (s.advance n).exitStatus = s.exitStatus := rfl
@[simp] theorem State.advance_out (s : State) (n : Nat) : (s.advance n).out = s.out := rfl
@[simp] theorem State.advance_diag (s : State) (n : Nat) : (s.advance n).diag = s.diag := rfl
@[simp] theorem State.advance_mem (s : State) (n : Nat) : (s.advance n).mem = s.mem := rfl

@[simp] theorem State.redirect_regs (s : State) (v : Byte) : (s.redirect v).regs = s.regs := rfl
@[simp] theorem State.redirect_pc (s : State) (v : Byte) : (s.redirect v).pc = BitVec.ofNat 9 v.toNat := rfl
@[simp] theorem State.redirect_fl (s : State) (v : Byte) : (s.redirect v).fl = s.fl := rfl
@[simp] theorem State.redirect_status (s : State) (v : Byte) : (s.redirect v).status = s.status := rfl
@[simp] theorem State.redirect_exitStatus (s : State) (v : Byte) : (s.redirect v).exitStatus = s.exitStatus := rfl
@[simp] theorem State.redirect_out (s : State) (v : Byte) : (s.redirect v).out = s.out := rfl
@[simp] theorem State.redirect_diag (s : State) (v : Byte) : (s.redirect v).diag = s.diag := rfl
@[simp] theorem State.redirect_mem (s : State) (v : Byte) : (s.redirect v).mem = s.mem := rfl

@[simp] theorem State.emitOut_regs (s : State) (v : Byte) : (s.emitOut v).regs = s.regs := rfl
@[simp] theorem State.emitOut_pc (s : State) (v : Byte) : (s.emitOut v).pc = s.pc := rfl
@[simp] theorem State.emitOut_fl (s : State) (v : Byte) : (s.emitOut v).fl = s.fl := rfl
@[simp] theorem State.emitOut_status (s : State) (v : Byte) : (s.emitOut v).status = s.status := rfl
@[simp] theorem State.emitOut_exitStatus (s : State) (v : Byte) : (s.emitOut v).exitStatus = s.exitStatus := rfl
@[simp] theorem State.emitOut_out (s : State) (v : Byte) : (s.emitOut v).out = s.out ++ [v] := rfl
@[simp] theorem State.emitOut_diag (s : State) (v : Byte) : (s.emitOut v).diag = s.diag := rfl
@[simp] theorem State.emitOut_mem (s : State) (v : Byte) : (s.emitOut v).mem = s.mem := rfl

@[simp] theorem State.emitDiag_regs (s : State) (d : Diag) : (s.emitDiag d).regs = s.regs := rfl
@[simp] theorem State.emitDiag_pc (s : State) (d : Diag) : (s.emitDiag d).pc = s.pc := rfl
@[simp] theorem State.emitDiag_fl (s : State) (d : Diag) : (s.emitDiag d).fl = s.fl := rfl
@[simp] theorem State.emitDiag_status (s : State) (d : Diag) : (s.emitDiag d).status = s.status := rfl
@[simp] theorem State.emitDiag_exitStatus (s : State) (d : Diag) : (s.emitDiag d).exitStatus = s.exitStatus := rfl
@[simp] theorem State.emitDiag_out (s : State) (d : Diag) : (s.emitDiag d).out = s.out := rfl
@[simp] theorem State.emitDiag_diag (s : State) (d : Diag) : (s.emitDiag d).diag = s.diag ++ [d] := rfl
@[simp] theorem State.emitDiag_mem (s : State) (d : Diag) : (s.emitDiag d).mem = s.mem := rfl

@[simp] theorem State.halt_regs (s : State) : s.halt.regs = s.regs := rfl
@[simp] theorem State.halt_pc (s : State) : s.halt.pc = s.pc := rfl
@[simp] theorem State.halt_fl (s : State) : s.halt.fl = s.fl := rfl
@[simp] theorem State.halt_status (s : State) : s.halt.status = .halted := rfl
@[simp] theorem State.halt_exitStatus (s : State) : s.halt.exitStatus = 0 := rfl
@[simp] theorem State.halt_out (s : State) : s.halt.out = s.out := rfl
@[simp] theorem State.halt_diag (s : State) : s.halt.diag = s.diag := rfl
@[simp] theorem State.halt_mem (s : State) : s.halt.mem = s.mem := rfl

@[simp] theorem State.takeFault_regs (s : State) (f : FatalFault) : (s.takeFault f).regs = s.regs := rfl
@[simp] theorem State.takeFault_pc (s : State) (f : FatalFault) : (s.takeFault f).pc = s.pc := rfl
@[simp] theorem State.takeFault_fl (s : State) (f : FatalFault) : (s.takeFault f).fl = s.fl := rfl
@[simp] theorem State.takeFault_status (s : State) (f : FatalFault) : (s.takeFault f).status = .faulted f := rfl
@[simp] theorem State.takeFault_exitStatus (s : State) (f : FatalFault) : (s.takeFault f).exitStatus = Config.fatalStatus := rfl
@[simp] theorem State.takeFault_out (s : State) (f : FatalFault) : (s.takeFault f).out = s.out := rfl
@[simp] theorem State.takeFault_diag (s : State) (f : FatalFault) : (s.takeFault f).diag = s.diag ++ [.fatal f] := rfl
@[simp] theorem State.takeFault_mem (s : State) (f : FatalFault) : (s.takeFault f).mem = s.mem := rfl

@[simp] theorem State.reset_regs : State.reset.regs = #v[0, 0, 0, 0, 0, 0, 0, Config.spInit] := rfl
@[simp] theorem State.reset_pc : State.reset.pc = 0 := rfl
@[simp] theorem State.reset_fl : State.reset.fl = 0 := rfl
@[simp] theorem State.reset_status : State.reset.status = .running := rfl
@[simp] theorem State.reset_out : State.reset.out = [] := rfl
@[simp] theorem State.reset_diag : State.reset.diag = [] := rfl
@[simp] theorem State.reset_mem : State.reset.mem = [] := rfl

/-! What each update does to the view of one register. -/

@[simp] theorem State.setReg_reg (s : State) (i j : Reg) (v : Byte) :
    (s.setReg i v).reg j = if j = i then v else s.reg j := by
  simp only [State.reg, State.setReg, Vector.getElem_set, Fin.ext_iff, eq_comm]

@[simp] theorem State.setSp_reg (s : State) (j : Reg) (v : Byte) :
    (s.setSp v).reg j = if j = 7 then v else s.reg j := State.setReg_reg s _ j v

@[simp] theorem State.setSp_sp (s : State) (v : Byte) : (s.setSp v).sp = v := by simp [State.sp]

theorem State.reg_spIndex (s : State) : s.reg 7 = s.sp := rfl

@[simp] theorem State.writeByte_reg (s : State) (a v : Byte) (j : Reg) : (s.writeByte a v).reg j = s.reg j := rfl
@[simp] theorem State.writeByte_sp (s : State) (a v : Byte) : (s.writeByte a v).sp = s.sp := rfl
@[simp] theorem State.setFl_reg (s : State) (v : Byte) (j : Reg) : (s.setFl v).reg j = s.reg j := rfl
@[simp] theorem State.setFl_sp (s : State) (v : Byte) : (s.setFl v).sp = s.sp := rfl
@[simp] theorem State.advance_reg (s : State) (n : Nat) (j : Reg) : (s.advance n).reg j = s.reg j := rfl
@[simp] theorem State.advance_sp (s : State) (n : Nat) : (s.advance n).sp = s.sp := rfl
@[simp] theorem State.redirect_reg (s : State) (v : Byte) (j : Reg) : (s.redirect v).reg j = s.reg j := rfl
@[simp] theorem State.redirect_sp (s : State) (v : Byte) : (s.redirect v).sp = s.sp := rfl
@[simp] theorem State.emitOut_reg (s : State) (v : Byte) (j : Reg) : (s.emitOut v).reg j = s.reg j := rfl
@[simp] theorem State.emitOut_sp (s : State) (v : Byte) : (s.emitOut v).sp = s.sp := rfl
@[simp] theorem State.emitDiag_reg (s : State) (d : Diag) (j : Reg) : (s.emitDiag d).reg j = s.reg j := rfl
@[simp] theorem State.emitDiag_sp (s : State) (d : Diag) : (s.emitDiag d).sp = s.sp := rfl
@[simp] theorem State.halt_reg (s : State) (j : Reg) : s.halt.reg j = s.reg j := rfl
@[simp] theorem State.halt_sp (s : State) : s.halt.sp = s.sp := rfl
@[simp] theorem State.takeFault_reg (s : State) (f : FatalFault) (j : Reg) : (s.takeFault f).reg j = s.reg j := rfl
@[simp] theorem State.takeFault_sp (s : State) (f : FatalFault) : (s.takeFault f).sp = s.sp := rfl

/-! What each update does to the view of one byte of memory. -/

@[simp] theorem State.setReg_readByte (s : State) (i : Reg) (v : Byte) (b : Byte) : (s.setReg i v).readByte b = s.readByte b := rfl
@[simp] theorem State.setSp_readByte (s : State) (v : Byte) (b : Byte) : (s.setSp v).readByte b = s.readByte b := rfl
@[simp] theorem State.setFl_readByte (s : State) (v : Byte) (b : Byte) : (s.setFl v).readByte b = s.readByte b := rfl
@[simp] theorem State.advance_readByte (s : State) (n : Nat) (b : Byte) : (s.advance n).readByte b = s.readByte b := rfl
@[simp] theorem State.redirect_readByte (s : State) (v : Byte) (b : Byte) : (s.redirect v).readByte b = s.readByte b := rfl
@[simp] theorem State.emitOut_readByte (s : State) (v : Byte) (b : Byte) : (s.emitOut v).readByte b = s.readByte b := rfl
@[simp] theorem State.emitDiag_readByte (s : State) (d : Diag) (b : Byte) : (s.emitDiag d).readByte b = s.readByte b := rfl
@[simp] theorem State.halt_readByte (s : State) (b : Byte) : s.halt.readByte b = s.readByte b := rfl
@[simp] theorem State.takeFault_readByte (s : State) (f : FatalFault) (b : Byte) : (s.takeFault f).readByte b = s.readByte b := rfl

end Sys2Proof.Machine
end

