-- ==== Sys2Proof/Laws/Operands.lean ====
section
/-! SUPPORT. Register operands: which bytes name a register, and what the operand check can do
(spec/30_encoding.md R64, spec/40_dispatcher.md R83). -/

namespace Sys2Proof.Machine

@[simp] theorem regByte_toNat (i : Reg) : (regByte i).toNat = i.val := by
  revert i; decide

theorem regByte_le (i : Reg) : (regByte i).toNat ≤ 7 := by
  have := i.isLt; rw [regByte_toNat]; omega

@[simp] theorem regByte_inj {i j : Reg} : regByte i = regByte j ↔ i = j := by
  rw [← BitVec.toNat_inj, regByte_toNat, regByte_toNat, Fin.ext_iff]

@[simp] theorem regIndex?_regByte (i : Reg) : regIndex? (regByte i) = some i := by
  revert i; decide

theorem regIndex?_bad {r : Byte} (h : 7 < r.toNat) : regIndex? r = none :=
  dif_neg (by omega)

/-- A byte of at most 7 is a register's byte. -/
theorem exists_regByte {r : Byte} (h : r.toNat ≤ 7) : ∃ i : Reg, r = regByte i :=
  ⟨⟨r.toNat, by omega⟩, by rw [← BitVec.toNat_inj, regByte_toNat]⟩

@[simp] theorem State.withReg_regByte (s : State) (i : Reg) (k : Reg → State) :
    s.withReg (regByte i) k = k i := by simp [State.withReg]

theorem State.withReg_bad {s : State} {r : Byte} {k : Reg → State} (h : 7 < r.toNat) :
    s.withReg r k = s.takeFault (.badReg s.pc r) := by simp [State.withReg, regIndex?_bad h]

/-- All an operand check can do. -/
theorem State.withReg_cases (s : State) (r : Byte) (k : Reg → State) :
    (∃ i, r = regByte i ∧ s.withReg r k = k i) ∨
    (7 < r.toNat ∧ s.withReg r k = s.takeFault (.badReg s.pc r)) := by
  by_cases h : r.toNat ≤ 7
  · obtain ⟨i, rfl⟩ := exists_regByte h
    exact .inl ⟨i, rfl, by simp⟩
  · exact .inr ⟨by omega, State.withReg_bad (by omega)⟩

@[simp] theorem State.withRegs_regByte (s : State) (i j : Reg) (k : Reg → Reg → State) :
    s.withRegs (regByte i) (regByte j) k = k i j := by simp [State.withRegs]

theorem State.withRegs_bad_first {s : State} {a b : Byte} {k : Reg → Reg → State} (h : 7 < a.toNat) :
    s.withRegs a b k = s.takeFault (.badReg s.pc a) := State.withReg_bad h

theorem State.withRegs_bad_second {s : State} {i : Reg} {b : Byte} {k : Reg → Reg → State}
    (h : 7 < b.toNat) : s.withRegs (regByte i) b k = s.takeFault (.badReg s.pc b) := by
  simp [State.withRegs, State.withReg_bad h]

/-- All a check of two operands can do. -/
theorem State.withRegs_cases (s : State) (a b : Byte) (k : Reg → Reg → State) :
    (∃ i j, a = regByte i ∧ b = regByte j ∧ s.withRegs a b k = k i j) ∨
    (∃ r, 7 < r.toNat ∧ s.withRegs a b k = s.takeFault (.badReg s.pc r)) := by
  rcases s.withReg_cases a fun i => s.withReg b fun j => k i j with ⟨i, rfl, h⟩ | ⟨ha, h⟩
  · rcases s.withReg_cases b (k i) with ⟨j, rfl, hj⟩ | ⟨hb, hj⟩
    · exact .inl ⟨i, j, rfl, rfl, h.trans hj⟩
    · exact .inr ⟨b, hb, h.trans hj⟩
  · exact .inr ⟨a, ha, h⟩

end Sys2Proof.Machine
end

