-- ==== Sys2Proof/Laws/Memory.lean ====
section
/-! SUPPORT. Memory: a read after a write, and the canonical form (spec/20_memory.md R41, R49). -/

namespace Sys2Proof.Machine

@[simp] theorem Memory.get?_nil (a : Nat) : Memory.get? [] a = none := rfl

theorem Memory.get?_cons (c : Host.Cell) (m : Memory) (a : Nat) :
    Memory.get? (c :: m) a = if a = c.1 then some c.2 else Memory.get? m a := rfl

/-- A read after a write: the value at the written address, every other address as before. -/
@[simp] theorem Memory.get?_put (m : Memory) (a b : Nat) (v : Byte) :
    (m.put a v).get? b = if b = a then some v else m.get? b := by
  induction m with
  | nil => rfl
  | cons c m ih =>
    obtain ⟨k, w⟩ := c
    simp only [Memory.put]
    split
    · simp [Memory.get?_cons]
    · split
      · simp only [Memory.get?_cons]; split <;> simp_all
      · simp only [Memory.get?_cons, ih]; split <;> simp_all; omega

/-- A cell of a written memory is the written one or an old one. -/
theorem Memory.mem_put {m : Memory} {a : Nat} {v : Byte} {c : Host.Cell} (h : c ∈ m.put a v) :
    c = (a, v) ∨ c ∈ m := by
  induction m with
  | nil => simpa [Memory.put] using h
  | cons d m ih =>
    obtain ⟨k, w⟩ := d
    simp only [Memory.put] at h
    split at h
    · simpa using h
    · split at h
      · rcases List.mem_cons.1 h with h | h <;> simp [h]
      · rcases List.mem_cons.1 h with h | h
        · simp [h]
        · rcases ih h with h | h <;> simp [h]

theorem Memory.wf_nil : Memory.wf [] := by simp [Memory.wf]

/-- A write inside the address space keeps the canonical form. -/
theorem Memory.put_wf {m : Memory} {a : Nat} {v : Byte} (h : m.wf) (ha : a < Config.memSize) :
    (m.put a v).wf := by
  refine ⟨?_, fun c hc => ?_⟩
  · obtain ⟨h, -⟩ := h
    induction m with
    | nil => simp [Memory.put]
    | cons d m ih =>
      obtain ⟨k, w⟩ := d
      obtain ⟨hd, hm⟩ := List.pairwise_cons.1 h
      simp only [Memory.put]
      split
      case isTrue hlt =>
        refine List.pairwise_cons.2 ⟨fun c hc => ?_, h⟩
        rcases List.mem_cons.1 hc with rfl | hc
        · exact hlt
        · exact Nat.lt_trans hlt (hd c hc)
      case isFalse hge =>
        split
        case isTrue heq => subst heq; exact List.pairwise_cons.2 ⟨hd, hm⟩
        case isFalse hne =>
          refine List.pairwise_cons.2 ⟨fun c hc => ?_, ih hm⟩
          rcases Memory.mem_put hc with rfl | hc
          · show k < a; omega
          · exact hd c hc
  · rcases Memory.mem_put hc with rfl | hc
    · exact ha
    · exact h.2 c hc

/-- An address below every listed one is not listed. -/
theorem Memory.get?_eq_none {m : Memory} {a : Nat} (h : ∀ c ∈ m, a < c.1) : m.get? a = none := by
  induction m with
  | nil => rfl
  | cons c m ih =>
    have := h c (by simp)
    rw [Memory.get?_cons, if_neg (by omega), ih fun d hd => h d (by simp [hd])]

/-- Canonical memories that answer alike at every address are equal. -/
theorem Memory.ext_get? {m n : Memory} (hm : m.wf) (hn : n.wf) (h : ∀ a, m.get? a = n.get? a) : m = n := by
  obtain ⟨hm, -⟩ := hm
  obtain ⟨hn, -⟩ := hn
  induction m generalizing n with
  | nil =>
    cases n with
    | nil => rfl
    | cons d n => simpa [Memory.get?_cons] using h d.1
  | cons c m ih =>
    cases n with
    | nil => simpa [Memory.get?_cons] using h c.1
    | cons d n =>
      obtain ⟨hc, hm'⟩ := List.pairwise_cons.1 hm
      obtain ⟨hd, hn'⟩ := List.pairwise_cons.1 hn
      have key : c.1 = d.1 := by
        rcases Nat.lt_trichotomy c.1 d.1 with hlt | heq | hgt
        · have h1 := h c.1
          rw [Memory.get?_cons, if_pos rfl, Memory.get?_eq_none (m := d :: n)] at h1
          · cases h1
          · intro e he
            rcases List.mem_cons.1 he with rfl | he
            · exact hlt
            · exact Nat.lt_trans hlt (hd e he)
        · exact heq
        · have h1 := h d.1
          rw [Memory.get?_eq_none (m := c :: m), Memory.get?_cons, if_pos rfl] at h1
          · cases h1
          · intro e he
            rcases List.mem_cons.1 he with rfl | he
            · exact hgt
            · exact Nat.lt_trans hgt (hc e he)
      have hval : c = d := by
        have h1 := h c.1
        rw [Memory.get?_cons, Memory.get?_cons, if_pos rfl, if_pos key] at h1
        exact Prod.ext key (Option.some.inj h1)
      subst hval
      refine congrArg _ (ih (fun a => ?_) hm' hn')
      by_cases ha : a = c.1
      · rw [ha, Memory.get?_eq_none hc, Memory.get?_eq_none hd]
      · have h1 := h a
        rwa [Memory.get?_cons, Memory.get?_cons, if_neg ha, if_neg ha] at h1

/-- `MemRead` after `MemWrite` (R41, R49). -/
@[simp] theorem State.writeByte_readByte (s : State) (a v b : Byte) :
    (s.writeByte a v).readByte b = if b = a then v else s.readByte b := by
  simp only [State.readByte, State.writeByte_mem, Memory.get?_put, BitVec.toNat_inj]
  split <;> rfl

/-- Every store of the machine keeps the canonical form: its address is 8 bits. -/
theorem State.writeByte_wf {s : State} (a v : Byte) (h : s.mem.wf) : (s.writeByte a v).mem.wf :=
  Memory.put_wf h a.isLt

end Sys2Proof.Machine
end

