-- ==== Sys2Proof/Laws/Ops.lean ====
section
/-! SUPPORT. The stack primitives, the advance, and the fatal fault (spec/41_stack.md R100, R101,
spec/40_dispatcher.md R84, spec/60_exceptions.md R152). -/

namespace Sys2Proof.Machine

/-- `FATAL_STATUS` is nonzero (R5). -/
theorem fatalStatus_ne_zero : Config.fatalStatus ≠ 0 := by
  unfold Config.fatalStatus; split <;> omega

/-- The advance is not reduced from any `pc` a fetch can be at (R84). -/
theorem State.advance_pc_toNat {s : State} {n : Nat} (h : s.pc.toNat + 1 + n < 512) :
    (s.advance n).pc.toNat = s.pc.toNat + 1 + n := by
  simp [BitVec.toNat_ofNat, Nat.mod_eq_of_lt h]

/-- A redirect keeps its target's value (R7, R85). -/
@[simp] theorem ofNat9_toNat (v : Byte) : (BitVec.ofNat 9 v.toNat).toNat = v.toNat := by
  have := v.isLt
  simp only [BitVec.toNat_ofNat]; omega

theorem State.pushAddr_toNat {s : State} (h : s.sp ≠ 0) : s.pushAddr.toNat = s.sp.toNat - 1 := by
  have h0 : s.sp.toNat ≠ 0 := fun e => h (by rw [← BitVec.toNat_inj]; simpa using e)
  have := s.sp.isLt
  simp only [State.pushAddr, BitVec.toNat_sub]
  simp; omega

/-! What a push does, field by field (R100). -/

@[simp] theorem State.push_reg (s : State) (v : State → Byte) (j : Reg) :
    (s.push v).reg j = if j = 7 then s.pushAddr else s.reg j := by simp [State.push]
@[simp] theorem State.push_sp (s : State) (v : State → Byte) : (s.push v).sp = s.pushAddr := by
  simp [State.sp]
@[simp] theorem State.push_readByte (s : State) (v : State → Byte) (b : Byte) :
    (s.push v).readByte b = if b = s.pushAddr then v (s.setSp s.pushAddr) else s.readByte b := by
  simp [State.push]
@[simp] theorem State.push_pc (s : State) (v : State → Byte) : (s.push v).pc = s.pc := rfl
@[simp] theorem State.push_fl (s : State) (v : State → Byte) : (s.push v).fl = s.fl := rfl
@[simp] theorem State.push_status (s : State) (v : State → Byte) : (s.push v).status = s.status := rfl
@[simp] theorem State.push_exitStatus (s : State) (v : State → Byte) :
    (s.push v).exitStatus = s.exitStatus := rfl
@[simp] theorem State.push_out (s : State) (v : State → Byte) : (s.push v).out = s.out := rfl
@[simp] theorem State.push_diag (s : State) (v : State → Byte) : (s.push v).diag = s.diag := rfl

theorem State.push_wf {s : State} (v : State → Byte) (h : s.mem.wf) : (s.push v).mem.wf :=
  State.writeByte_wf (s := s.setSp s.pushAddr) _ _ h

/-- The check of a push with SP = 0 (R100). -/
theorem State.checkPush_zero {s : State} (t : State) (h : s.sp = 0) :
    s.checkPush t = s.takeFault (.addrFault .stack s.pc 0) := by simp [State.checkPush, h]

/-- The check of a push with room below SP (R100). -/
theorem State.checkPush_ne {s : State} (t : State) (h : s.sp ≠ 0) : s.checkPush t = t := if_neg h

/-- A pop whose incremented SP would leave the address space (R101). -/
theorem State.pop_fault {s : State} {dest : Option Reg} (write : State → Byte → State)
    (h : 255 < s.popSpAfter dest) :
    s.pop dest write = s.takeFault (.addrFault .stack s.pc s.sp.toNat) := if_pos h

/-- A pop that completes (R101). -/
theorem State.pop_next {s : State} {dest : Option Reg} (write : State → Byte → State)
    (h : s.popSpAfter dest ≤ 255) :
    s.pop dest write = (write s s.popValue).setSp (BitVec.ofNat 8 (s.popSpAfter dest)) :=
  if_neg (by omega)

/-- SP after a pop into R7 (R103) and after any other (R101). -/
theorem State.popSpAfter_sp (s : State) :
    s.popSpAfter (some 7) = s.popValue.toNat + 1 := by simp [State.popSpAfter]

theorem State.popSpAfter_of_ne {s : State} {dest : Option Reg} (h : dest ≠ some 7) :
    s.popSpAfter dest = s.sp.toNat + 1 := by simp [State.popSpAfter, h]

end Sys2Proof.Machine
end

