-- ==== Sys2Proof/Laws/Exec.lean ====
section
/-! SUPPORT. Everything an instruction can do, said once: `exec_total` (it always answers a next state) and
`exec_cases` (that state is a fatal fault taken, or one of the effects of `Effect`). -/

namespace Sys2Proof.Machine

/-- What each instruction does when it takes no fault, on register operands 0..7. -/
inductive Effect : Instr → State → State → Prop
  | hlt (s : State) : Effect .hlt s (s.halt.advance 0)
  | ret (s : State) (h : s.sp.toNat + 1 ≤ 255) :
      Effect .ret s ((s.redirect s.popValue).setSp (BitVec.ofNat 8 (s.sp.toNat + 1)))
  | prn (i : Reg) (s : State) : Effect (.prn (regByte i)) s ((s.emitOut (s.reg i)).advance 1)
  | call (i : Reg) (s : State) (h : s.sp ≠ 0) (hr : s.pc.toNat + 2 ≤ 255) :
      Effect (.call (regByte i)) s
        ((s.push fun _ => BitVec.ofNat 8 (s.pc.toNat + 2)).redirect
          (if i = 7 then s.pushAddr else s.reg i))
  | pop (i : Reg) (s : State) (h : s.popSpAfter (some i) ≤ 255) :
      Effect (.pop (regByte i)) s
        (((s.setReg i s.popValue).advance 1).setSp (BitVec.ofNat 8 (s.popSpAfter (some i))))
  | push (i : Reg) (s : State) (h : s.sp ≠ 0) :
      Effect (.push (regByte i)) s ((s.push fun t => t.reg i).advance 1)
  | jmp (i : Reg) (s : State) : Effect (.jmp (regByte i)) s (s.redirect (s.reg i))
  | jeqTaken (i : Reg) (s : State) (h : s.fl = 1) : Effect (.jeq (regByte i)) s (s.redirect (s.reg i))
  | jeqNot (i : Reg) (s : State) (h : s.fl ≠ 1) : Effect (.jeq (regByte i)) s (s.advance 1)
  | jneTaken (i : Reg) (s : State) (h : s.fl ≠ 1) : Effect (.jne (regByte i)) s (s.redirect (s.reg i))
  | jneNot (i : Reg) (s : State) (h : s.fl = 1) : Effect (.jne (regByte i)) s (s.advance 1)
  | inc (i : Reg) (s : State) : Effect (.inc (regByte i)) s ((s.setReg i (aluInc (s.reg i))).advance 1)
  | dec (i : Reg) (s : State) : Effect (.dec (regByte i)) s ((s.setReg i (aluDec (s.reg i))).advance 1)
  | ldi (i : Reg) (imm : Byte) (s : State) : Effect (.ldi (regByte i) imm) s ((s.setReg i imm).advance 2)
  | cmp (i j : Reg) (s : State) :
      Effect (.cmp (regByte i) (regByte j)) s ((s.setFl (compareFlags (s.reg i) (s.reg j))).advance 2)
  | add (i j : Reg) (s : State) :
      Effect (.add (regByte i) (regByte j)) s ((s.setReg i (aluAdd (s.reg i) (s.reg j))).advance 2)
  | mul (i j : Reg) (s : State) :
      Effect (.mul (regByte i) (regByte j)) s ((s.setReg i (aluMul (s.reg i) (s.reg j))).advance 2)
  | div (i j : Reg) (s : State) (h : s.reg j ≠ 0) :
      Effect (.div (regByte i) (regByte j)) s ((s.setReg i (aluDiv (s.reg i) (s.reg j))).advance 2)

/-! One equation per instruction, on register operands 0..7. -/

theorem exec_hlt (s : State) : exec .hlt s = .next (s.halt.advance 0) := rfl
theorem exec_prn (i : Reg) (s : State) :
    exec (.prn (regByte i)) s = .next ((s.emitOut (s.reg i)).advance 1) := by simp [exec, execPrn]
theorem exec_jmp (i : Reg) (s : State) : exec (.jmp (regByte i)) s = .next (s.redirect (s.reg i)) := by
  simp [exec, execJmp]
theorem exec_jeq (i : Reg) (s : State) : exec (.jeq (regByte i)) s =
    .next (if s.fl = 1 then s.redirect (s.reg i) else s.advance 1) :=
  congrArg _ (State.withReg_regByte s i _)
theorem exec_jne (i : Reg) (s : State) : exec (.jne (regByte i)) s =
    .next (if s.fl = 1 then s.advance 1 else s.redirect (s.reg i)) :=
  congrArg _ (State.withReg_regByte s i _)
theorem exec_inc (i : Reg) (s : State) :
    exec (.inc (regByte i)) s = .next ((s.setReg i (aluInc (s.reg i))).advance 1) := by simp [exec, execInc]
theorem exec_dec (i : Reg) (s : State) :
    exec (.dec (regByte i)) s = .next ((s.setReg i (aluDec (s.reg i))).advance 1) := by simp [exec, execDec]
theorem exec_ldi (i : Reg) (imm : Byte) (s : State) :
    exec (.ldi (regByte i) imm) s = .next ((s.setReg i imm).advance 2) := by simp [exec, execLdi]
theorem exec_cmp (i j : Reg) (s : State) : exec (.cmp (regByte i) (regByte j)) s =
    .next ((s.setFl (compareFlags (s.reg i) (s.reg j))).advance 2) := by simp [exec, execCmp]
theorem exec_add (i j : Reg) (s : State) : exec (.add (regByte i) (regByte j)) s =
    .next ((s.setReg i (aluAdd (s.reg i) (s.reg j))).advance 2) := by simp [exec, execAdd]
theorem exec_mul (i j : Reg) (s : State) : exec (.mul (regByte i) (regByte j)) s =
    .next ((s.setReg i (aluMul (s.reg i) (s.reg j))).advance 2) := by simp [exec, execMul]
theorem exec_div (i j : Reg) (s : State) : exec (.div (regByte i) (regByte j)) s =
    .next (if s.reg j = 0 then s.takeFault (.divByZero s.pc (regByte i) (regByte j))
      else (s.setReg i (aluDiv (s.reg i) (s.reg j))).advance 2) := by simp [exec, execDiv]
theorem exec_push (i : Reg) (s : State) : exec (.push (regByte i)) s =
    .next (s.checkPush ((s.push fun t => t.reg i).advance 1)) := by simp [exec, execPush]
theorem exec_pop (i : Reg) (s : State) : exec (.pop (regByte i)) s =
    .next (s.pop (some i) fun t v => (t.setReg i v).advance 1) := by simp [exec, execPop]
theorem exec_ret (s : State) : exec .ret s = .next (s.pop none fun t v => t.redirect v) := rfl
theorem exec_call (i : Reg) (s : State) : exec (.call (regByte i)) s =
    .next (s.checkPush (if 255 < s.pc.toNat + 2 then
        s.takeFault (.addrFault .returnAddress s.pc (s.pc.toNat + 2))
      else (s.push fun _ => BitVec.ofNat 8 (s.pc.toNat + 2)).redirect
        (if i = 7 then s.pushAddr else s.reg i))) := by
  simp [exec, execCall, State.returnAddress]

/-! The instructions with a fault of their own, on either side of its condition. -/

theorem exec_div_zero {i j : Reg} {s : State} (h : s.reg j = 0) : exec (.div (regByte i) (regByte j)) s =
    .next (s.takeFault (.divByZero s.pc (regByte i) (regByte j))) := by rw [exec_div, if_pos h]
theorem exec_div_next {i j : Reg} {s : State} (h : s.reg j ≠ 0) : exec (.div (regByte i) (regByte j)) s =
    .next ((s.setReg i (aluDiv (s.reg i) (s.reg j))).advance 2) := by rw [exec_div, if_neg h]
theorem exec_push_fault {i : Reg} {s : State} (h : s.sp = 0) :
    exec (.push (regByte i)) s = .next (s.takeFault (.addrFault .stack s.pc 0)) := by
  rw [exec_push, State.checkPush_zero _ h]
theorem exec_push_next {i : Reg} {s : State} (h : s.sp ≠ 0) :
    exec (.push (regByte i)) s = .next ((s.push fun t => t.reg i).advance 1) := by
  rw [exec_push, State.checkPush_ne _ h]
theorem exec_pop_fault {i : Reg} {s : State} (h : 255 < s.popSpAfter (some i)) :
    exec (.pop (regByte i)) s = .next (s.takeFault (.addrFault .stack s.pc s.sp.toNat)) := by
  rw [exec_pop, State.pop_fault _ h]
theorem exec_pop_next {i : Reg} {s : State} (h : s.popSpAfter (some i) ≤ 255) : exec (.pop (regByte i)) s =
    .next (((s.setReg i s.popValue).advance 1).setSp (BitVec.ofNat 8 (s.popSpAfter (some i)))) := by
  rw [exec_pop, State.pop_next _ h]
theorem exec_call_stack {i : Reg} {s : State} (h : s.sp = 0) :
    exec (.call (regByte i)) s = .next (s.takeFault (.addrFault .stack s.pc 0)) := by
  rw [exec_call, State.checkPush_zero _ h]
theorem exec_call_returnAddress {i : Reg} {s : State} (h : s.sp ≠ 0) (hr : 255 < s.pc.toNat + 2) :
    exec (.call (regByte i)) s = .next (s.takeFault (.addrFault .returnAddress s.pc (s.pc.toNat + 2))) := by
  rw [exec_call, State.checkPush_ne _ h, if_pos hr]
theorem exec_call_next {i : Reg} {s : State} (h : s.sp ≠ 0) (hr : s.pc.toNat + 2 ≤ 255) :
    exec (.call (regByte i)) s = .next ((s.push fun _ => BitVec.ofNat 8 (s.pc.toNat + 2)).redirect
      (if i = 7 then s.pushAddr else s.reg i)) := by
  rw [exec_call, State.checkPush_ne _ h, if_neg (by omega)]
theorem exec_ret_fault {s : State} (h : 255 < s.sp.toNat + 1) :
    exec .ret s = .next (s.takeFault (.addrFault .stack s.pc s.sp.toNat)) := by
  rw [exec_ret, State.pop_fault _ (by rwa [State.popSpAfter_of_ne (by simp)])]
theorem exec_ret_next {s : State} (h : s.sp.toNat + 1 ≤ 255) : exec .ret s =
    .next ((s.redirect s.popValue).setSp (BitVec.ofNat 8 (s.sp.toNat + 1))) := by
  have hp : s.popSpAfter none = s.sp.toNat + 1 := State.popSpAfter_of_ne (by simp)
  rw [exec_ret, State.pop_next _ (by omega), hp]

/-- Every instruction answers a next state in every state: no meaning ends in a model fault or a refusal. -/
theorem exec_total (i : Instr) (s : State) : ∃ t, exec i s = .next t := by
  cases i <;> exact ⟨_, rfl⟩

theorem next_inj {s t : State} : (Host.Outcome.next s : Result) = .next t ↔ s = t :=
  ⟨fun h => by injection h, fun h => h ▸ rfl⟩

/-- A register operand of 8 or more makes any instruction take BAD_REG on the first such byte (R83). -/
theorem exec_badReg {i : Instr} {s : State} {r : Byte}
    (h : i.regOperands.find? (fun b => decide (7 < b.toNat)) = some r) :
    exec i s = .next (s.takeFault (.badReg s.pc r)) := by
  have one (b : Byte) (h : [b].find? (fun b => decide (7 < b.toNat)) = some r) : 7 < b.toNat ∧ b = r := by
    by_cases hb : 7 < b.toNat <;> simp [hb] at h
    exact ⟨hb, h⟩
  have two (a b : Byte) (k : Reg → Reg → State)
      (h : [a, b].find? (fun b => decide (7 < b.toNat)) = some r) :
      s.withRegs a b k = s.takeFault (.badReg s.pc r) := by
    by_cases ha : 7 < a.toNat
    · simp [ha] at h; subst h; exact State.withRegs_bad_first ha
    · obtain ⟨j, rfl⟩ := exists_regByte (r := a) (by omega)
      obtain ⟨hb, rfl⟩ := one b (by rwa [List.find?_cons_of_neg (by simpa using ha)] at h)
      exact State.withRegs_bad_second hb
  cases i with
  | hlt => cases h
  | ret => cases h
  | cmp a b => exact congrArg _ (two a b _ h)
  | add a b => exact congrArg _ (two a b _ h)
  | mul a b => exact congrArg _ (two a b _ h)
  | div a b => exact congrArg _ (two a b _ h)
  | _ => obtain ⟨hb, rfl⟩ := one _ h; exact congrArg _ (State.withReg_bad hb)

/-- Either every register operand is the byte of a register, or some byte is the first bad one. -/
theorem regOperands_cases (i : Instr) :
    (∀ b ∈ i.regOperands, ∃ j : Reg, b = regByte j) ∨
    ∃ r, 7 < r.toNat ∧ i.regOperands.find? (fun b => decide (7 < b.toNat)) = some r := by
  cases h : i.regOperands.find? (fun b => decide (7 < b.toNat)) with
  | none => exact .inl fun b hb => exists_regByte (by simpa using List.find?_eq_none.1 h b hb)
  | some r => exact .inr ⟨r, by simpa using List.find?_some h, rfl⟩

/-- All an instruction can do: take a fatal fault at its own address, or its effect. -/
theorem exec_cases {i : Instr} {s t : State} (h : exec i s = .next t) :
    (∃ f, t = s.takeFault f ∧ f.pcFetch = s.pc) ∨ Effect i s t := by
  rcases regOperands_cases i with hv | ⟨r, -, hr⟩
  swap
  · rw [exec_badReg hr, next_inj] at h; exact .inl ⟨_, h.symm, rfl⟩
  cases i with
  | hlt => rw [exec_hlt, next_inj] at h; exact h ▸ .inr (.hlt s)
  | ret =>
    by_cases hp : s.sp.toNat + 1 ≤ 255
    · rw [exec_ret_next hp, next_inj] at h; exact h ▸ .inr (.ret s hp)
    · rw [exec_ret_fault (by omega), next_inj] at h; exact .inl ⟨_, h.symm, rfl⟩
  | prn r => obtain ⟨j, rfl⟩ := hv r (by simp [Instr.regOperands]); rw [exec_prn, next_inj] at h; exact h ▸ .inr (.prn j s)
  | call r =>
    obtain ⟨j, rfl⟩ := hv r (by simp [Instr.regOperands])
    by_cases h0 : s.sp = 0
    · rw [exec_call_stack h0, next_inj] at h; exact .inl ⟨_, h.symm, rfl⟩
    · by_cases hr : s.pc.toNat + 2 ≤ 255
      · rw [exec_call_next h0 hr, next_inj] at h; exact h ▸ .inr (.call j s h0 hr)
      · rw [exec_call_returnAddress h0 (by omega), next_inj] at h; exact .inl ⟨_, h.symm, rfl⟩
  | pop r =>
    obtain ⟨j, rfl⟩ := hv r (by simp [Instr.regOperands])
    by_cases hp : s.popSpAfter (some j) ≤ 255
    · rw [exec_pop_next hp, next_inj] at h; exact h ▸ .inr (.pop j s hp)
    · rw [exec_pop_fault (by omega), next_inj] at h; exact .inl ⟨_, h.symm, rfl⟩
  | push r =>
    obtain ⟨j, rfl⟩ := hv r (by simp [Instr.regOperands])
    by_cases h0 : s.sp = 0
    · rw [exec_push_fault h0, next_inj] at h; exact .inl ⟨_, h.symm, rfl⟩
    · rw [exec_push_next h0, next_inj] at h; exact h ▸ .inr (.push j s h0)
  | jmp r => obtain ⟨j, rfl⟩ := hv r (by simp [Instr.regOperands]); rw [exec_jmp, next_inj] at h; exact h ▸ .inr (.jmp j s)
  | jeq r =>
    obtain ⟨j, rfl⟩ := hv r (by simp [Instr.regOperands])
    rw [exec_jeq, next_inj] at h
    by_cases hf : s.fl = 1
    · rw [if_pos hf] at h; exact h ▸ .inr (.jeqTaken j s hf)
    · rw [if_neg hf] at h; exact h ▸ .inr (.jeqNot j s hf)
  | jne r =>
    obtain ⟨j, rfl⟩ := hv r (by simp [Instr.regOperands])
    rw [exec_jne, next_inj] at h
    by_cases hf : s.fl = 1
    · rw [if_pos hf] at h; exact h ▸ .inr (.jneNot j s hf)
    · rw [if_neg hf] at h; exact h ▸ .inr (.jneTaken j s hf)
  | inc r => obtain ⟨j, rfl⟩ := hv r (by simp [Instr.regOperands]); rw [exec_inc, next_inj] at h; exact h ▸ .inr (.inc j s)
  | dec r => obtain ⟨j, rfl⟩ := hv r (by simp [Instr.regOperands]); rw [exec_dec, next_inj] at h; exact h ▸ .inr (.dec j s)
  | ldi r imm => obtain ⟨j, rfl⟩ := hv r (by simp [Instr.regOperands]); rw [exec_ldi, next_inj] at h; exact h ▸ .inr (.ldi j imm s)
  | cmp a b =>
    obtain ⟨j, rfl⟩ := hv a (by simp [Instr.regOperands]); obtain ⟨k, rfl⟩ := hv b (by simp [Instr.regOperands])
    rw [exec_cmp, next_inj] at h; exact h ▸ .inr (.cmp j k s)
  | add a b =>
    obtain ⟨j, rfl⟩ := hv a (by simp [Instr.regOperands]); obtain ⟨k, rfl⟩ := hv b (by simp [Instr.regOperands])
    rw [exec_add, next_inj] at h; exact h ▸ .inr (.add j k s)
  | mul a b =>
    obtain ⟨j, rfl⟩ := hv a (by simp [Instr.regOperands]); obtain ⟨k, rfl⟩ := hv b (by simp [Instr.regOperands])
    rw [exec_mul, next_inj] at h; exact h ▸ .inr (.mul j k s)
  | div a b =>
    obtain ⟨j, rfl⟩ := hv a (by simp [Instr.regOperands]); obtain ⟨k, rfl⟩ := hv b (by simp [Instr.regOperands])
    by_cases h0 : s.reg k = 0
    · rw [exec_div_zero h0, next_inj] at h; exact .inl ⟨_, h.symm, rfl⟩
    · rw [exec_div_next h0, next_inj] at h; exact h ▸ .inr (.div j k s h0)

end Sys2Proof.Machine
end

