-- ==== Sys2Proof/Laws/PerInstr.lean ====
section
/-! SUPPORT. Laws of every instruction as syntax, one lemma per constructor. -/

namespace Sys2Proof.Laws

/-- R61, R62: an instruction is `1 + N` bytes long, 1 to 3, where `N` is bits 7:6 of its opcode byte. -/
def EncodedLength.Statement (i : Instr) : Prop :=
  (encode i).length = 1 + operandCount (opcodeByte i) ∧ (encode i).length ≤ 3

theorem EncodedLength.hlt : EncodedLength.Statement .hlt :=
  by simp [EncodedLength.Statement, encode, opcodeByte, operandBytes, operandCount_eq]
theorem EncodedLength.ret : EncodedLength.Statement .ret :=
  by simp [EncodedLength.Statement, encode, opcodeByte, operandBytes, operandCount_eq]
theorem EncodedLength.prn (r : Byte) : EncodedLength.Statement (.prn r) :=
  by simp [EncodedLength.Statement, encode, opcodeByte, operandBytes, operandCount_eq]
theorem EncodedLength.call (r : Byte) : EncodedLength.Statement (.call r) :=
  by simp [EncodedLength.Statement, encode, opcodeByte, operandBytes, operandCount_eq]
theorem EncodedLength.pop (r : Byte) : EncodedLength.Statement (.pop r) :=
  by simp [EncodedLength.Statement, encode, opcodeByte, operandBytes, operandCount_eq]
theorem EncodedLength.push (r : Byte) : EncodedLength.Statement (.push r) :=
  by simp [EncodedLength.Statement, encode, opcodeByte, operandBytes, operandCount_eq]
theorem EncodedLength.jmp (r : Byte) : EncodedLength.Statement (.jmp r) :=
  by simp [EncodedLength.Statement, encode, opcodeByte, operandBytes, operandCount_eq]
theorem EncodedLength.jeq (r : Byte) : EncodedLength.Statement (.jeq r) :=
  by simp [EncodedLength.Statement, encode, opcodeByte, operandBytes, operandCount_eq]
theorem EncodedLength.jne (r : Byte) : EncodedLength.Statement (.jne r) :=
  by simp [EncodedLength.Statement, encode, opcodeByte, operandBytes, operandCount_eq]
theorem EncodedLength.inc (r : Byte) : EncodedLength.Statement (.inc r) :=
  by simp [EncodedLength.Statement, encode, opcodeByte, operandBytes, operandCount_eq]
theorem EncodedLength.dec (r : Byte) : EncodedLength.Statement (.dec r) :=
  by simp [EncodedLength.Statement, encode, opcodeByte, operandBytes, operandCount_eq]
theorem EncodedLength.ldi (r imm : Byte) : EncodedLength.Statement (.ldi r imm) :=
  by simp [EncodedLength.Statement, encode, opcodeByte, operandBytes, operandCount_eq]
theorem EncodedLength.cmp (a b : Byte) : EncodedLength.Statement (.cmp a b) :=
  by simp [EncodedLength.Statement, encode, opcodeByte, operandBytes, operandCount_eq]
theorem EncodedLength.add (a b : Byte) : EncodedLength.Statement (.add a b) :=
  by simp [EncodedLength.Statement, encode, opcodeByte, operandBytes, operandCount_eq]
theorem EncodedLength.mul (a b : Byte) : EncodedLength.Statement (.mul a b) :=
  by simp [EncodedLength.Statement, encode, opcodeByte, operandBytes, operandCount_eq]
theorem EncodedLength.div (a b : Byte) : EncodedLength.Statement (.div a b) :=
  by simp [EncodedLength.Statement, encode, opcodeByte, operandBytes, operandCount_eq]

end Sys2Proof.Laws
end

