-- ==== Sys2Proof/Laws/Step.lean ====
section
/-! SUPPORT. Everything a step can do, said once (`step_cases`), the fetch, and runs
(spec/40_dispatcher.md R80 to R88). -/

namespace Sys2Proof.Machine

/-- The bytes fetched are a prefix of what stands at `pc`, `pc + 1`, `pc + 2` (R81). -/
theorem State.fetchBytes_three {s : State} (h : s.pc.toNat ≤ 253) :
    s.fetchBytes = [s.readByte (BitVec.ofNat 8 s.pc.toNat), s.readByte (BitVec.ofNat 8 (s.pc.toNat + 1)),
      s.readByte (BitVec.ofNat 8 (s.pc.toNat + 2))] := by
  have h1 : s.pc.toNat < 256 := by omega
  have h2 : s.pc.toNat + 1 < 256 := by omega
  have h3 : s.pc.toNat + 2 < 256 := by omega
  simp [State.fetchBytes, Config.memSize, List.filter, h1, h2, h3]

theorem State.fetchBytes_two {s : State} (h : s.pc.toNat = 254) :
    s.fetchBytes = [s.readByte (BitVec.ofNat 8 s.pc.toNat), s.readByte (BitVec.ofNat 8 (s.pc.toNat + 1))] := by
  simp [State.fetchBytes, Config.memSize, List.filter, h]

theorem State.fetchBytes_one {s : State} (h : s.pc.toNat = 255) :
    s.fetchBytes = [s.readByte (BitVec.ofNat 8 s.pc.toNat)] := by
  simp [State.fetchBytes, Config.memSize, List.filter, h]

/-- Nothing is fetched past 255 (R82). -/
theorem State.fetchBytes_none {s : State} (h : 255 < s.pc.toNat) : s.fetchBytes = [] := by
  have h1 : ¬ s.pc.toNat < 256 := by omega
  have h2 : ¬ s.pc.toNat + 1 < 256 := by omega
  have h3 : ¬ s.pc.toNat + 2 < 256 := by omega
  simp [State.fetchBytes, Config.memSize, List.filter, h1, h2, h3]

/-- The first byte fetched is the byte at `pc`. -/
theorem State.fetchBytes_head {s : State} (h : s.pc.toNat ≤ 255) :
    ∃ rest, s.fetchBytes = s.readByte (BitVec.ofNat 8 s.pc.toNat) :: rest := by
  rcases Nat.lt_or_ge s.pc.toNat 254 with h1 | h1
  · exact ⟨_, State.fetchBytes_three (by omega)⟩
  · rcases Nat.eq_or_lt_of_le h1 with h2 | h2
    · exact ⟨_, State.fetchBytes_two h2.symm⟩
    · exact ⟨_, State.fetchBytes_one (by omega)⟩

/-! The step, by the run status and by what the fetch answers. -/

theorem step_ok {s : State} {i : Instr} {rest : List Byte} (h : s.status = .running)
    (hf : s.fetch = .ok i rest) : step s = exec i s := by simp only [step, h, hf]

theorem step_reject {s : State} {r : Reject} (h : s.status = .running) (hf : s.fetch = .reject r) :
    step s = .next (s.takeReject r) := by simp only [step, h, hf]

theorem step_stopped {s : State} (h : s.status ≠ .running) : step s = .next s := by
  cases hs : s.status with
  | running => exact absurd hs h
  | halted => simp [step, hs, State.idle]
  | faulted f => simp [step, hs, State.idle]

/-- Every step answers a next state. -/
theorem step_total (s : State) : ∃ t, step s = .next t := by
  by_cases h : s.status = .running
  · cases hf : s.fetch with
    | ok i rest => rw [step_ok h hf]; exact exec_total i s
    | reject r => exact ⟨_, step_reject h hf⟩
  · exact ⟨s, step_stopped h⟩

/-- All a step can do. -/
theorem step_cases {s t : State} (h : step s = .next t) :
    (s.status ≠ .running ∧ t = s) ∨
    (s.status = .running ∧ ∃ f, t = s.takeFault f ∧ f.pcFetch = s.pc) ∨
    (s.status = .running ∧ ∃ op rest, s.fetchBytes = op :: rest ∧ s.fetch = .reject (.unknownOpcode op) ∧
      t = s.softFail op (operandCount op)) ∨
    (s.status = .running ∧ ∃ i rest, s.fetch = .ok i rest ∧ Effect i s t) := by
  by_cases hr : s.status = .running
  swap
  · rw [step_stopped hr, next_inj] at h; exact .inl ⟨hr, h.symm⟩
  cases hf : s.fetch with
  | ok i rest =>
    rw [step_ok hr hf] at h
    rcases exec_cases h with hx | hx
    · exact .inr (.inl ⟨hr, hx⟩)
    · exact .inr (.inr (.inr ⟨hr, i, rest, rfl, hx⟩))
  | reject r =>
    rw [step_reject hr hf, next_inj] at h
    cases r with
    | missingByte k => exact .inr (.inl ⟨hr, _, h.symm, rfl⟩)
    | unknownOpcode op =>
      obtain ⟨rest, hb⟩ := decode_unknown hf
      exact .inr (.inr (.inl ⟨hr, op, rest, hb, rfl, h.symm⟩))

/-- `n + 1` steps are one step and then `n` (Host.Core.run). -/
theorem run_succ {s t : State} (n : Nat) (h : step s = .next t) :
    Host.Core.run core (n + 1) s = Host.Core.run core n t := by
  have h' : core.step s = .next t := h
  simp only [Host.Core.run, h']

end Sys2Proof.Machine
end

