-- ==== Sys2Proof/Tests/Slice0.lean ====
section
/-! SUPPORT. The model's own tests: what WellFormed refuses, the words of spec/30_encoding.md R66 written out bit by
bit, single steps taken from the vectors of spec/95_test_vectors.md (V-..., worked by hand from the rules), and a
witness for the hypotheses of every statement. -/

namespace Sys2Proof.Tests

open Sys2Proof.Machine

/-- A running state: registers, `pc`, `FL` and the listed bytes of memory; the rest as at reset. -/
def st (regs : Vector Byte 8) (pc : Pc) (fl : Byte) (mem : Memory) : State :=
  { State.reset with regs := regs, pc := pc, fl := fl, mem := mem }

/-- R0 and R1 given, SP given, the other registers 0. -/
def rs (r0 r1 sp : Byte) : Vector Byte 8 := #v[r0, r1, 0, 0, 0, 0, 0, sp]

/-- What is seen of the state one step later. -/
def after {α : Type} (s : State) (f : State → α) : Option α :=
  match step s with
  | .next t => some (f t)
  | .fault _ => none
  | .refused _ => none

/-! ## WellFormed (R64): each check refuses an ill-formed term -/

theorem test_wf_refuses_one : (Instr.push 8).wellFormed = false := by decide
theorem test_wf_refuses_ldi : (Instr.ldi 0xFF 0).wellFormed = false := by decide
theorem test_wf_refuses_first : (Instr.add 8 0).wellFormed = false := by decide
theorem test_wf_refuses_second : (Instr.div 0 9).wellFormed = false := by decide
theorem test_wf_accepts : (Instr.cmp 7 7).wellFormed = true ∧ (Instr.ldi 7 0xFF).wellFormed = true ∧
    Instr.hlt.wellFormed = true := by decide

/-! ## Decode: every row of R66 from its bits -/

theorem test_decode_hlt : decode [0b00000001] = .ok .hlt [] := by decide
theorem test_decode_ret : decode [0b00001001] = .ok .ret [] := by decide
theorem test_decode_prn : decode [0b01000011, 5] = .ok (.prn 5) [] := by decide
theorem test_decode_call : decode [0b01001000, 5] = .ok (.call 5) [] := by decide
theorem test_decode_pop : decode [0b01001100, 5] = .ok (.pop 5) [] := by decide
theorem test_decode_push : decode [0b01001101, 5] = .ok (.push 5) [] := by decide
theorem test_decode_jmp : decode [0b01010000, 5] = .ok (.jmp 5) [] := by decide
theorem test_decode_jeq : decode [0b01010001, 5] = .ok (.jeq 5) [] := by decide
theorem test_decode_jne : decode [0b01010010, 5] = .ok (.jne 5) [] := by decide
theorem test_decode_inc : decode [0b01111000, 5] = .ok (.inc 5) [] := by decide
theorem test_decode_dec : decode [0b01111001, 5] = .ok (.dec 5) [] := by decide
theorem test_decode_ldi : decode [0b10011001, 5, 200] = .ok (.ldi 5 200) [] := by decide
theorem test_decode_cmp : decode [0b10100000, 5, 6] = .ok (.cmp 5 6) [] := by decide
theorem test_decode_add : decode [0b10101000, 5, 6] = .ok (.add 5 6) [] := by decide
theorem test_decode_mul : decode [0b10101010, 5, 6] = .ok (.mul 5 6) [] := by decide
theorem test_decode_div : decode [0b10101011, 5, 6] = .ok (.div 5 6) [] := by decide
/-- V-DSP-6: 0x41 has HLT's ID but is no instruction. -/
theorem test_decode_whole_byte : decode [0x41, 0] = .reject (.unknownOpcode 0x41) := by decide
theorem test_decode_missing : decode [] = .reject (.missingByte 0) ∧ decode [67] = .reject (.missingByte 1) ∧
    decode [153, 0] = .reject (.missingByte 2) := by decide
/-- The table numbers bit 0 as the least significant bit of the first byte. -/
theorem test_decode_table_word : decodeTableWord 24 0x080099 = some (.ldi 0 8) ∧ decodeTableWord 8 171 = some (.div 0 0) ∧
    decodeTableWord 8 0 = none := by decide
/-- R69: the spec's own list of W1 in its notation. -/
theorem test_asm : [Instr.ldi 0 8, .mul 0 1, .prn 0, .hlt].map asm? =
    [some "LDI R0, 8", some "MUL R0, R1", some "PRN R0", some "HLT"] := by decide

/-! ## One step each, from the vectors of 95_test_vectors.md -/

/-- V-ALU-2. -/
theorem test_add_wraps : after (st (rs 200 100 0xF4) 0 2 [(0, 168), (1, 0), (2, 1)])
    (fun t => (t.reg 0, t.reg 1, t.pc, t.fl)) = some (44, 100, 3, 2) := by decide
/-- V-ALU-4: the source is the destination. -/
theorem test_add_self : after (st (rs 130 0 0xF4) 0 0 [(0, 168), (1, 0), (2, 0)]) (fun t => t.reg 0) = some 4 := by decide
/-- V-ALU-7. -/
theorem test_mul_wraps : after (st (rs 255 255 0xF4) 0 0 [(0, 170), (1, 0), (2, 1)]) (fun t => t.reg 0) = some 1 := by decide
/-- V-ALU-8. -/
theorem test_div_floor : after (st (rs 7 2 0xF4) 0 0 [(0, 171), (1, 0), (2, 1)])
    (fun t => (t.reg 0, t.pc)) = some (3, 3) := by decide
/-- V-ALU-10. -/
theorem test_div_by_zero : after (st (rs 5 0 0xF4) 6 0 [(6, 171), (7, 0), (8, 1)])
    (fun t => (t.reg 0, t.pc, t.status, t.diag)) =
    some (5, 6, .faulted (.divByZero 6 0 1), [.fatal (.divByZero 6 0 1)]) := by decide
/-- V-ALU-18. -/
theorem test_inc_wraps : after (st (rs 255 0 0xF4) 0 2 [(0, 120), (1, 0)])
    (fun t => (t.reg 0, t.fl, t.pc)) = some (0, 2, 2) := by decide
/-- V-ALU-19. -/
theorem test_dec_wraps : after (st (rs 0 0 0xF4) 0 0 [(0, 121), (1, 0)]) (fun t => t.reg 0) = some 255 := by decide
/-- V-ALU-20: no stack check on R7. -/
theorem test_dec_sp : after (st (rs 0 0 0) 0 0 [(0, 121), (1, 7)]) (fun t => (t.sp, t.status)) = some (255, .running) := by
  decide
/-- V-ALU-14. -/
theorem test_cmp_greater : after (st (rs 6 5 0xF4) 0 4 [(0, 160), (1, 0), (2, 1)]) (fun t => t.fl) = some 2 := by decide
/-- V-ALU-16: unsigned. -/
theorem test_cmp_unsigned : after (st (rs 0 255 0xF4) 0 1 [(0, 160), (1, 0), (2, 1)])
    (fun t => (t.fl, t.reg 0)) = some (4, 0) := by decide
/-- V-STK-2. -/
theorem test_push_sp : after (st (rs 0 0 0xF4) 0 0 [(0, 77), (1, 7)])
    (fun t => (t.sp, t.readByte 0xF3, t.pc)) = some (0xF3, 0xF3, 2) := by decide
/-- V-STK-4. -/
theorem test_push_at_zero : after (st (rs 9 0 0) 5 0 [(5, 77), (6, 0)])
    (fun t => (t.sp, t.pc, t.status)) = some (0, 5, .faulted (.addrFault .stack 5 0)) := by decide
/-- V-STK-6. -/
theorem test_pop_sp : after (st (rs 0 0 0xF3) 0 0 [(0, 76), (1, 7), (0xF3, 0x10)]) (fun t => t.sp) = some 0x11 := by decide
/-- V-STK-7. -/
theorem test_pop_sp_fault : after (st (rs 0 0 0xF3) 0 0 [(0, 76), (1, 7), (0xF3, 255)])
    (fun t => (t.sp, t.status)) = some (0xF3, .faulted (.addrFault .stack 0 0xF3)) := by decide
/-- V-CTL-2. -/
theorem test_call_sp : after (st (rs 0 0 0xF4) 0x10 0 [(0x10, 72), (0x11, 7)])
    (fun t => (t.sp, t.readByte 0xF3, t.pc)) = some (0xF3, 0x12, 0xF3) := by decide
/-- V-CTL-4: STACK before RETURN_ADDRESS. -/
theorem test_call_priority : after (st (rs 0 5 0) 254 0 [(254, 72), (255, 1)])
    (fun t => t.status) = some (.faulted (.addrFault .stack 254 0)) := by decide
/-- V-CTL-5. -/
theorem test_ret : after (st (rs 0 0 0xF3) 11 0 [(11, 9), (0xF3, 5)]) (fun t => (t.pc, t.sp)) = some (5, 0xF4) := by decide
/-- V-CTL-15. -/
theorem test_ret_fault : after (st (rs 0 0 255) 0 0 [(0, 9)])
    (fun t => (t.pc, t.status)) = some (0, .faulted (.addrFault .stack 0 255)) := by decide
/-- V-CTL-6. -/
theorem test_jeq_taken : after (st (rs 15 0 0xF4) 12 1 [(12, 81), (13, 0)]) (fun t => t.pc) = some 15 := by decide
/-- V-DSP-15: the operand is checked although the branch is not taken. -/
theorem test_jeq_bad_reg : after (st (rs 0 0 0xF4) 0x20 0 [(0x20, 81), (0x21, 9)])
    (fun t => t.status) = some (.faulted (.badReg 0x20 9)) := by decide
/-- V-CTL-9: taken before any compare. -/
theorem test_jne_taken : after (st (rs 0x50 0 0xF4) 0x20 0 [(0x20, 82), (0x21, 0)]) (fun t => t.pc) = some 0x50 := by decide
/-- V-CTL-12. -/
theorem test_jne_not_taken : after (st (rs 0x50 0 0xF4) 0x20 1 [(0x20, 82), (0x21, 0)]) (fun t => t.pc) = some 0x22 := by decide
/-- V-CTL-13. -/
theorem test_jmp : after (st (rs 19 0 0xF4) 0 0 [(0, 80), (1, 0)]) (fun t => t.pc) = some 19 := by decide
/-- V-SYS-2. -/
theorem test_ldi_sp : after (st (rs 0 0 0xF4) 0 0 [(0, 153), (1, 7), (2, 0)]) (fun t => (t.sp, t.pc)) = some (0, 3) := by decide
/-- V-DSP-9. -/
theorem test_ldi_off_the_top : after (st (rs 0 0 0xF4) 254 0 [(254, 153), (255, 0)])
    (fun t => (t.reg 0, t.pc, t.status)) = some (0, 254, .faulted (.addrFault .fetch 254 256)) := by decide
/-- V-DSP-10: PRN at 254 completes. -/
theorem test_prn_at_top : after (st (rs 7 0 0xF4) 254 0 [(254, 67), (255, 0)])
    (fun t => (t.out, t.pc, t.status)) = some ([7], 256, .running) := by decide
/-- V-SYS-7. -/
theorem test_hlt_at_top : after (st (rs 0 0 0xF4) 255 0 [(255, 1)])
    (fun t => (t.status, t.exitStatus, t.pc)) = some (.halted, 0, 256) := by decide
/-- V-DSP-7. -/
theorem test_unknown_advances_four : after (st (rs 0 0 0xF4) 255 0 [(255, 0xFF)])
    (fun t => (t.pc, t.status, t.diag)) = some (259, .running, [.unknownOpcode 0xFF 255]) := by decide
/-- V-DSP-8. -/
theorem test_fetch_past_top : after (st (rs 0 0 0xF4) 256 0 [])
    (fun t => (t.pc, t.status)) = some (256, .faulted (.addrFault .fetch 256 256)) := by decide
/-- V-DSP-14: BAD_REG before DIV_BY_ZERO. -/
theorem test_bad_reg_priority : after (st (rs 0 0 0xF4) 0x20 0 [(0x20, 171), (0x21, 9), (0x22, 0)])
    (fun t => t.status) = some (.faulted (.badReg 0x20 9)) := by decide
/-- V-DSP-16. -/
theorem test_stopped : after { st (rs 1 2 3) 4 0 [(4, 120), (5, 0)] with status := .halted }
    (fun t => (t.regs, t.pc, t.status)) = some (rs 1 2 3, 4, .halted) := by decide
/-- W1 is loaded and its first instruction runs. -/
theorem test_launch : after (launch [(0, 153), (1, 0), (2, 8)]) (fun t => (t.reg 0, t.pc)) = some (8, 3) := by decide

/-! ## Witnesses: for each statement with hypotheses, concrete data that meet them, at the ends of their ranges -/

/-- `FetchFaultsPastTop`: each opcode with an operand byte, at 255, and each with two, at 254. -/
theorem witness_FetchFaultsPastTop :
    (∀ op ∈ ([67, 72, 76, 77, 80, 81, 82, 120, 121, 153, 160, 168, 170, 171] : List Byte),
      let s := st (rs 0 0 0xF4) 255 0 [(255, op)]
      s.status = .running ∧ s.pc.toNat ≤ 255 ∧ s.readByte (BitVec.ofNat 8 s.pc.toNat) = op ∧
        255 < s.pc.toNat + operandCount op) ∧
    (∀ op ∈ ([153, 160, 168, 170, 171] : List Byte),
      let s := st (rs 0 0 0xF4) 254 0 [(254, op), (255, 0)]
      s.status = .running ∧ s.pc.toNat ≤ 255 ∧ s.readByte (BitVec.ofNat 8 s.pc.toNat) = op ∧
        255 < s.pc.toNat + operandCount op) := by decide
/-- `BadRegOne`, `BadRegTwo` and LDI's own clause: the lowest bad byte, and the highest good first operand. -/
theorem witness_BadReg : 7 < (8 : Byte).toNat ∧ 7 < (255 : Byte).toNat ∧ (7 : Byte).toNat ≤ 7 := by decide
/-- The statements whose result clause asks only for `pc ≤ 255` (ADD, MUL, INC, DEC, JEQ, JNE, LDI, PRN, HLT): the two
ends. -/
theorem witness_pc_range : (st (rs 0 0 0xF4) 0 0 []).pc.toNat ≤ 255 ∧ (st (rs 0 0 0xF4) 255 0 []).pc.toNat ≤ 255 := by
  decide
theorem witness_DivWritesQuotientOrFaultsOnZero :
    (st (rs 5 0 0xF4) 255 0 []).reg 1 = 0 ∧
    (st (rs 5 1 0xF4) 255 0 []).reg 1 ≠ 0 ∧ (st (rs 5 1 0xF4) 255 0 []).pc.toNat ≤ 255 := by decide
theorem witness_CmpSetsExactlyOneOutcome :
    (st (rs 5 5 0xF4) 255 0 []).pc.toNat ≤ 255 ∧
    ((st (rs 5 5 0xF4) 255 0 []).reg 0).toNat = ((st (rs 5 5 0xF4) 255 0 []).reg 1).toNat ∧
    ((st (rs 6 5 0xF4) 255 0 []).reg 1).toNat < ((st (rs 6 5 0xF4) 255 0 []).reg 0).toNat ∧
    ((st (rs 5 6 0xF4) 255 0 []).reg 0).toNat < ((st (rs 5 6 0xF4) 255 0 []).reg 1).toNat := by decide
theorem witness_PushStoresBelowSpOrFaults :
    (st (rs 0 0 0) 255 0 []).sp = 0 ∧
    (st (rs 0 0 1) 255 0 []).sp ≠ 0 ∧ (st (rs 0 0 1) 255 0 []).pc.toNat ≤ 255 := by decide
theorem witness_PopLoadsFromSpOrFaults :
    (let s := st (rs 0 0 255) 0 0 [(255, 9)]
     (9 : Byte) = s.readByte s.sp ∧ 256 = (if (1 : Reg) = 7 then (9 : Byte) else s.sp).toNat + 1 ∧ 255 < 256) ∧
    (let s := st (rs 0 0 254) 255 0 [(254, 255)]
     (255 : Byte) = s.readByte s.sp ∧ 255 = (if (1 : Reg) = 7 then (255 : Byte) else s.sp).toNat + 1 ∧
       255 ≤ 255 ∧ s.pc.toNat ≤ 255) ∧
    (let s := st (rs 0 0 0xF3) 0 0 [(0xF3, 255)]
     (255 : Byte) = s.readByte s.sp ∧ 256 = (if (7 : Reg) = 7 then (255 : Byte) else s.sp).toNat + 1 ∧ 255 < 256) ∧
    (let s := st (rs 0 0 255) 0 0 [(255, 254)]
     (254 : Byte) = s.readByte s.sp ∧ 255 = (if (7 : Reg) = 7 then (254 : Byte) else s.sp).toNat + 1 ∧ 255 ≤ 255) := by
  decide
theorem witness_CallPushesReturnAddressAndJumps :
    (st (rs 0 0 0) 254 0 []).sp = 0 ∧
    ((st (rs 0 0 1) 254 0 []).sp ≠ 0 ∧ 255 < (st (rs 0 0 1) 254 0 []).pc.toNat + 2) ∧
    ((st (rs 0 0 1) 253 0 []).sp ≠ 0 ∧ (st (rs 0 0 1) 253 0 []).pc.toNat + 2 ≤ 255) := by decide
/-- RET's and HLT's fetch clause at 256, and RET's two pop clauses. -/
theorem witness_RetPopsPc :
    ((st (rs 0 0 0xF4) 256 0 []).status = .running ∧ 255 < (st (rs 0 0 0xF4) 256 0 []).pc.toNat) ∧
    (st (rs 0 0 255) 0 0 []).sp.toNat = 255 ∧ (st (rs 0 0 254) 0 0 []).sp.toNat < 255 := by decide

/-- The frames: a next state of each instruction they name, on good operands. -/
theorem witness_frames : ∀ s : State,
    (∀ i ∈ [Instr.add 0 1, .mul 0 1, .div 0 1, .inc 0, .dec 0, .ldi 0 1], ∃ t, exec i s = .next t) ∧
    (∀ i ∈ [Instr.cmp 0 1, .prn 0, .hlt], ∃ t, exec i s = .next t) ∧
    (∀ i ∈ [Instr.jmp 0, .jeq 0, .jne 0], ∃ t, exec i s = .next t) ∧
    (∀ i ∈ [Instr.push 0, .call 0], ∃ t, exec i s = .next t) ∧
    (∀ i ∈ [Instr.pop 0, .ret], ∃ t, exec i s = .next t) :=
  fun s => ⟨fun i _ => exec_total i s, fun i _ => exec_total i s, fun i _ => exec_total i s,
    fun i _ => exec_total i s, fun i _ => exec_total i s⟩

/-- The dispatcher's clauses: past the top; an unknown byte at 255; operand bytes past 255; BAD_REG on each operand;
a well-formed instruction that ends at 255. -/
theorem witness_StepFollowsTheDispatcher :
    (let s := st (rs 0 0 0xF4) 256 0 []
     s.status = .running ∧ 255 < s.pc.toNat) ∧
    (let s := st (rs 0 0 0xF4) 255 0 [(255, 0)]
     s.status = .running ∧ s.pc.toNat ≤ 255 ∧ (s.readByte (BitVec.ofNat 8 s.pc.toNat)).toNat ∉ opcodeValues) ∧
    (let s := st (rs 0 0 0xF4) 254 0 [(254, 153), (255, 0)]
     s.status = .running ∧ s.pc.toNat ≤ 255 ∧ (s.readByte (BitVec.ofNat 8 s.pc.toNat)).toNat ∈ opcodeValues ∧
       255 < s.pc.toNat + 2 ∧ ∀ m, m < 2 → s.pc.toNat + m ≤ 255) ∧
    (let s := st (rs 0 0 0xF4) 253 0 [(253, 168), (254, 8), (255, 0)]
     s.pc.toNat + 2 ≤ 255 ∧ (Instr.add 8 0).format ≠ .f0 ∧ 7 < (s.readByte 254).toNat) ∧
    (let s := st (rs 0 0 0xF4) 253 0 [(253, 168), (254, 7), (255, 8)]
     (Instr.add 7 8).format = .rr ∧ (s.readByte 254).toNat ≤ 7 ∧ 7 < (s.readByte 255).toNat) ∧
    (Instr.add 7 7).wellFormed = true := by decide
theorem witness_FetchFaultsOffTheTop :
    (let s := st (rs 0 0 0xF4) 256 0 []
     s.status = .running ∧ 255 < s.pc.toNat) ∧
    (let s := st (rs 0 0 0xF4) 254 0 [(254, 153), (255, 0)]
     s.status = .running ∧ s.pc.toNat ≤ 255 ∧
       s.readByte (BitVec.ofNat 8 s.pc.toNat) = opcodeByte (.ldi 0 0) ∧ 2 ≤ operandCount (opcodeByte (.ldi 0 0)) ∧
       255 < s.pc.toNat + 2 ∧ ∀ m, m < 2 → 1 ≤ m → s.pc.toNat + m ≤ 255) ∧
    (let s := st (rs 0 0 0xF4) 255 0 [(255, 67)]
     s.readByte (BitVec.ofNat 8 s.pc.toNat) = opcodeByte (.prn 0) ∧ 1 ≤ operandCount (opcodeByte (.prn 0)) ∧
       255 < s.pc.toNat + 1) := by decide
theorem witness_BadRegisterByteFaultsBeforeAnything :
    (Instr.add 7 8).regOperands.find? (fun b => decide (7 < b.toNat)) = some 8 ∧
    (Instr.add 8 9).regOperands.find? (fun b => decide (7 < b.toNat)) = some 8 ∧
    (Instr.jeq 255).regOperands.find? (fun b => decide (7 < b.toNat)) = some 255 ∧
    (Instr.add 7 7).wellFormed = true ∧ ∃ t, exec (.add 7 7) State.reset = .next t :=
  ⟨by decide, by decide, by decide, by decide, exec_total _ _⟩
theorem witness_UnknownOpcodeIsLoggedAndSkipped :
    let s := st (rs 0 0 0xF4) 255 0 [(255, 0xC1)]
    s.status = .running ∧ s.pc.toNat ≤ 255 ∧ s.readByte (BitVec.ofNat 8 s.pc.toNat) = 0xC1 ∧
      (0xC1 : Byte).toNat ∉ opcodeValues := by decide
/-- An untaken JEQ at 254 and an unrecognized byte at 255. -/
theorem witness_GenericAdvanceByOperandCount :
    (let s := st (rs 0 0 0xF4) 254 0 [(254, 81), (255, 0)]
     s.status = .running ∧ s.nextInstr? = some (.jeq 0) ∧ s.fl ≠ 1) ∧
    (let s := st (rs 0 0 0xF4) 255 0 [(255, 0xFF)]
     s.status = .running ∧ s.nextInstr? = none) := by decide
/-- Bytes of each length, ending at 255. -/
theorem witness_StepRunsTheInstructionAtPc :
    (st (rs 0 0 0xF4) 255 0 [(255, 1)]).BytesAtPc (encode .hlt) ∧
    (st (rs 0 0 0xF4) 254 0 [(254, 67), (255, 0)]).BytesAtPc (encode (.prn 0)) ∧
    (st (rs 0 0 0xF4) 253 0 [(253, 153), (254, 0), (255, 8)]).BytesAtPc (encode (.ldi 0 8)) := by
  unfold State.BytesAtPc; decide
theorem witness_FetchWordIsRun :
    (st (rs 0 0 0xF4) 253 0 []).status = .running ∧ (st (rs 0 0 0xF4) 253 0 []).pc.toNat ≤ 253 ∧
    decodeTableWord 24 0x080099 = some (.ldi 0 8) := by decide
theorem witness_OpcodeMapIsTheTable : (0 : Byte).toNat ∉ opcodeValues ∧ (0xFF : Byte).toNat ∉ opcodeValues ∧
    (171 : Byte).toNat ∈ opcodeValues := by decide
theorem witness_DecodeIffEncode : decode [153, 0, 8, 1] = .ok (.ldi 0 8) [1] := by decide
theorem witness_FatalFaultIsPrecise : ∃ s t f, s.status = .running ∧ step s = .next t ∧ t.status = .faulted f :=
  ⟨st (rs 0 0 0xF4) 256 0 [], _, .addrFault .fetch 256 256, rfl, rfl, rfl⟩
/-- A stopped core, a core about to run HLT, and one about to run PRN. -/
theorem witness_RunEndsOnlyByHltOrFault :
    ({ st (rs 0 0 0xF4) 0 0 [] with status := .halted }).status ≠ .running ∧
    (st (rs 0 0 0xF4) 255 0 [(255, 1)]).nextInstr? = some .hlt ∧
    (st (rs 0 0 0xF4) 254 0 [(254, 67), (255, 0)]).nextInstr? ≠ some .hlt ∧
    ∀ s, ∃ t, step s = .next t := ⟨by decide, by decide, by decide, step_total⟩
theorem witness_ChannelsOnlyGrowAsStated : ∃ s t, s.status = .running ∧ step s = .next t ∧
    s.nextInstr? = some (.prn (regByte 0)) :=
  ⟨st (rs 7 0 0xF4) 254 0 [(254, 67), (255, 0)], _, rfl, rfl, by decide⟩
theorem witness_FlagsFlowOnlyFromCmpToBranches :
    (let s := st (rs 6 5 0xF4) 0 0 [(0, 160), (1, 0), (2, 1)]
     after s (fun t => decide (t.fl ≠ s.fl)) = some true) ∧
    (∃ t, exec (.jeq 0) State.reset = .next t) ∧ ((2 : Byte) = 1 ↔ State.reset.fl = 1) :=
  ⟨by decide, exec_total _ _, by decide⟩
/-- A PUSH and a CALL that change a byte. -/
theorem witness_OnlyPushAndCallStore :
    (let s := st (rs 5 0 0xF4) 0 0 [(0, 77), (1, 0), (0xF3, 0)]
     after s (fun t => decide (t.readByte 0xF3 ≠ s.readByte 0xF3)) = some true) ∧
    (let s := st (rs 5 0 1) 253 0 [(0, 0), (253, 72), (254, 0)]
     after s (fun t => decide (t.readByte 0 ≠ s.readByte 0)) = some true) := by decide
/-- The invariants' states: `pc` at its highest reachable value, and one that steps to it. -/
theorem witness_StepKeepsPcAndFlagsInRange :
    (st (rs 0 0 0xF4) 259 4 []).Inv ∧ (st (rs 0 0 0xF4) 255 4 [(255, 0xFF)]).Inv ∧ ∀ s, ∃ t, step s = .next t :=
  ⟨⟨by decide, by decide⟩, ⟨by decide, by decide⟩, step_total⟩
theorem witness_StepKeepsStateConsistent :
    (st (rs 0 0 0xF4) 0 0 [(0, 77), (255, 0)]).Consistent ∧ ∀ s, ∃ t, step s = .next t :=
  ⟨⟨by decide, trivial⟩, step_total⟩
theorem witness_StoppedCoreStaysAsItIs :
    ({ st (rs 0 0 0xF4) 0 0 [] with status := .halted }).status ≠ .running ∧
    ({ st (rs 0 0 0xF4) 0 0 [] with status := .faulted (.badReg 0 8) }).status ≠ .running := by decide
/-- The lowest SP, and SP at its reset value. -/
theorem witness_PushThenPopRoundTrip : (0 : Reg) ≠ 7 ∧ (6 : Reg) ≠ 7 ∧ 1 ≤ (st (rs 0 0 1) 0 0 []).sp.toNat ∧
    1 ≤ State.reset.sp.toNat := by decide
theorem witness_CallThenRetReturns :
    let s := st (rs 0 0 1) 253 0 []
    let u := st (rs 0 0 0) 8 0 [(0, 255)]
    s.pc.toNat ≤ 253 ∧ 1 ≤ s.sp.toNat ∧ u.sp.toNat = s.sp.toNat - 1 ∧
      after (st (rs 0 0 1) 253 0 [(253, 72), (254, 0)]) (fun t => t.readByte u.sp) = some (u.readByte u.sp) := by decide
/-- A PUSH just below its own stack slot, and a CALL R7. -/
theorem witness_NextFetchSeesTheStore :
    (let s := st (rs 5 0 3) 0 0 [(0, 77), (1, 0)]
     s.status = .running ∧ s.sp ≠ 0 ∧ s.pc.toNat ≤ 253 ∧
       after s (fun t => decide (t.pc.toNat = s.pushAddr.toNat)) = some true) ∧
    (let s := st (rs 5 0 1) 253 0 [(253, 72), (254, 7)]
     s.status = .running ∧ s.sp ≠ 0 ∧ s.pc.toNat ≤ 253 ∧
       after s (fun t => decide (t.pc.toNat = s.pushAddr.toNat)) = some true) ∧
    (st (rs 5 0 3) 0 0 [(0, 77), (1, 0)]).BytesAtPc (encode (.push (regByte 0))) ∧
    (st (rs 5 0 1) 253 0 [(253, 72), (254, 7)]).BytesAtPc (encode (.call (regByte 7))) := by
  unfold State.BytesAtPc; decide
/-- V-CTL-17. -/
theorem witness_CallOverItsOwnOperand :
    let s := st (rs 0x60 0 0x22) 0x20 0 [(0x20, 72), (0x21, 0)]
    (0 : Reg) ≠ 7 ∧ s.status = .running ∧ s.BytesAtPc [72, regByte 0] ∧ s.pc.toNat ≤ 253 ∧ s.sp ≠ 0 ∧
      s.pushAddr.toNat = s.pc.toNat + 1 := by
  unfold State.BytesAtPc; decide
/-- An image that pokes address 5 twice, and not address 6. -/
theorem witness_LaunchImageIsWhatWasPoked :
    let image : List (Byte × Byte) := [(5, 1), (5, 2), (7, 3)]
    image = [(5, 1)] ++ (5, 2) :: [(7, 3)] ∧ (∀ c ∈ ([(7, 3)] : List (Byte × Byte)), c.1 ≠ 5) ∧
      ∀ c ∈ image, c.1 ≠ 6 := ⟨rfl, by simp, by simp⟩
/-- V-CTL-14. -/
theorem witness_JumpToItselfHangs :
    let s := st (rs 0x20 0 0xF4) 0x20 0 [(0x20, 80), (0x21, 0)]
    s.status = .running ∧ s.BytesAtPc [80, regByte 0] ∧ (s.reg 0).toNat = s.pc.toNat := by
  unfold State.BytesAtPc; decide
/-- The end of P7: 0xC0 at 255, the last byte; and a `pc` already past the top. -/
theorem witness_UnknownBytesRunOffTheTop :
    (∃ s : State, s.status = .running ∧ s.pc.toNat = 255 ∧
      ∀ a : Byte, s.pc.toNat ≤ a.toNat → (s.readByte a).toNat ∉ opcodeValues) ∧
    (∃ s : State, s.status = .running ∧ s.pc.toNat = 256 ∧
      ∀ a : Byte, s.pc.toNat ≤ a.toNat → (s.readByte a).toNat ∉ opcodeValues) := by
  refine ⟨⟨st (rs 0 0 0xF4) 255 0 [(255, 0xC0)], rfl, rfl, fun a ha => ?_⟩,
    ⟨st (rs 0 0 0xF4) 256 0 [], rfl, rfl, fun a ha => ?_⟩⟩
  · have h : a = 255 := by
      have h1 : 255 ≤ a.toNat := ha
      have h2 := a.isLt
      rw [← BitVec.toNat_inj]; show a.toNat = 255; omega
    subst h; decide
  · have h1 : 256 ≤ a.toNat := ha
    have h2 := a.isLt
    omega

end Sys2Proof.Tests
end

section
/-! SUPPORT. What a fetched instruction says about `pc` and about the step, and what an instruction's effect does to
each field that is not memory or a register: one lemma per field, over the relation `Effect`. -/

namespace Sys2Proof.Machine

/-- The two ways to name the instruction at `pc` agree. -/
theorem State.nextInstr?_eq_some {s : State} {i : Instr} :
    s.nextInstr? = some i ↔ ∃ rest, s.fetch = .ok i rest := by
  cases hf : s.fetch <;> simp [State.nextInstr?, hf]

theorem step_of_nextInstr? {s : State} {i : Instr} (hr : s.status = .running) (hi : s.nextInstr? = some i) :
    step s = exec i s := by
  obtain ⟨rest, hf⟩ := State.nextInstr?_eq_some.1 hi
  exact step_ok hr hf

/-- A byte is fetched only from inside memory (R82). -/
theorem State.pc_le_of_fetchBytes {s : State} (h : s.fetchBytes ≠ []) : s.pc.toNat ≤ 255 :=
  not_lt.1 fun hp => h (State.fetchBytes_none hp)

theorem State.pc_le_of_fetch_ok {s : State} {i : Instr} {rest : List Byte} (h : s.fetch = .ok i rest) :
    s.pc.toNat ≤ 255 := by
  refine State.pc_le_of_fetchBytes fun hb => ?_
  rw [State.fetch, hb] at h
  cases h

/-- The instructions advance by at most 3, and redirect to an address in memory. -/
theorem Effect.pc_le {i : Instr} {s t : State} (h : Effect i s t) (hp : s.pc.toNat ≤ 255) : t.pc.toNat ≤ 258 := by
  have hadv (u : State) (n : Nat) (hu : u.pc = s.pc) (hn : n ≤ 2) : (u.advance n).pc.toNat ≤ 258 := by
    rw [State.advance_pc_toNat (by rw [hu]; omega), hu]; omega
  have hred (u : State) (v : Byte) : (u.redirect v).pc.toNat ≤ 258 := by
    have := v.isLt
    rw [State.redirect_pc, ofNat9_toNat]; omega
  cases h with
  | ret => exact hred s _
  | call | jmp | jeqTaken | jneTaken => exact hred _ _
  | _ => exact hadv _ _ rfl (by decide)

/-- Only CMP writes `FL` (R26). -/
theorem Effect.fl_cases {i : Instr} {s t : State} (h : Effect i s t) :
    t.fl = s.fl ∨
      ∃ j k : Reg, i = .cmp (regByte j) (regByte k) ∧ t.fl = compareFlags (s.reg j) (s.reg k) := by
  cases h with
  | cmp j k => exact .inr ⟨j, k, rfl, rfl⟩
  | _ => exact .inl rfl

/-- Only HLT moves the run status (R28). -/
theorem Effect.status_cases {i : Instr} {s t : State} (h : Effect i s t) :
    t.status = s.status ∨ (i = .hlt ∧ t.status = .halted) := by
  cases h with
  | hlt => exact .inr ⟨rfl, rfl⟩
  | _ => exact .inl rfl

/-- Only PRN appends to the output (R29). -/
theorem Effect.out_cases {i : Instr} {s t : State} (h : Effect i s t) :
    t.out = s.out ∨ ∃ j : Reg, i = .prn (regByte j) ∧ t.out = s.out ++ [s.reg j] := by
  cases h with
  | prn j => exact .inr ⟨j, rfl, rfl⟩
  | _ => exact .inl rfl

/-- No instruction's effect writes a diagnostic record (R29). -/
theorem Effect.diag_eq {i : Instr} {s t : State} (h : Effect i s t) : t.diag = s.diag := by
  cases h <;> rfl

theorem exec_fl_of_ne_cmp {i : Instr} {s t : State} (hi : ∀ a b, i ≠ .cmp a b) (h : exec i s = .next t) :
    t.fl = s.fl := by
  rcases exec_cases h with ⟨f, rfl, -⟩ | he
  · rfl
  · rcases he.fl_cases with hfl | ⟨j, k, rfl, -⟩
    · exact hfl
    · exact absurd rfl (hi _ _)

end Sys2Proof.Machine
end

section
/-! SUPPORT. Noninterference: two states that differ only in `FL` or in the channels (R26, R29) stay so under every
operation, every instruction and every step. -/

namespace Sys2Proof.Machine

/-- The two states are the same but for `FL` and the two channels; where `F` holds `FL` is the same too, and where
`C` holds the channels are. -/
structure State.Agrees (F C : Prop) (s u : State) : Prop where
  regs : u.regs = s.regs
  pc : u.pc = s.pc
  status : u.status = s.status
  exitStatus : u.exitStatus = s.exitStatus
  mem : u.mem = s.mem
  fl : F → u.fl = s.fl
  out : C → u.out = s.out
  diag : C → u.diag = s.diag

namespace State.Agrees

variable {F C : Prop} {s u : State}

theorem reg (h : Agrees F C s u) (i : Reg) : u.reg i = s.reg i := by rw [State.reg, h.regs, State.reg]

theorem sp (h : Agrees F C s u) : u.sp = s.sp := h.reg _

theorem readByte (h : Agrees F C s u) (a : Byte) : u.readByte a = s.readByte a := by
  rw [State.readByte, h.mem, State.readByte]

theorem fetch (h : Agrees F C s u) : u.fetch = s.fetch := by
  simp only [State.fetch, State.fetchBytes, h.pc, h.readByte]

theorem takeFault (h : Agrees F C s u) {f g : FatalFault} (hf : g = f) :
    Agrees F C (s.takeFault f) (u.takeFault g) := by
  subst hf
  exact { h with status := rfl, exitStatus := rfl, diag := fun hc => congrArg (· ++ _) (h.diag hc) }

theorem setReg (h : Agrees F C s u) (i : Reg) {v w : Byte} (hv : w = v) :
    Agrees F C (s.setReg i v) (u.setReg i w) := by
  subst hv
  exact { h with regs := congrArg (·.set i.val w) h.regs }

theorem setFl (h : Agrees F C s u) {v w : Byte} (hv : w = v) : Agrees F C (s.setFl v) (u.setFl w) :=
  { h with fl := fun _ => hv }

theorem advance (h : Agrees F C s u) (n : Nat) : Agrees F C (s.advance n) (u.advance n) :=
  { h with pc := by simp [h.pc] }

theorem redirect (h : Agrees F C s u) {v w : Byte} (hv : w = v) : Agrees F C (s.redirect v) (u.redirect w) :=
  { h with pc := by simp [hv] }

theorem emitOut (h : Agrees F C s u) {v w : Byte} (hv : w = v) : Agrees F C (s.emitOut v) (u.emitOut w) :=
  { h with out := fun hc => by simp [h.out hc, hv] }

theorem emitDiag (h : Agrees F C s u) {d e : Diag} (hd : e = d) : Agrees F C (s.emitDiag d) (u.emitDiag e) :=
  { h with diag := fun hc => by simp [h.diag hc, hd] }

theorem halt (h : Agrees F C s u) : Agrees F C s.halt u.halt := { h with status := rfl, exitStatus := rfl }

theorem writeByte (h : Agrees F C s u) {a b v w : Byte} (ha : b = a) (hv : w = v) :
    Agrees F C (s.writeByte a v) (u.writeByte b w) :=
  { h with mem := by simp [h.mem, ha, hv] }

/-- The same choice between two ways to go on. -/
theorem branch {c c' : Prop} [Decidable c] [Decidable c'] (hc : c' ↔ c) {t t' v v' : State}
    (ht : Agrees F C t t') (hv : Agrees F C v v') :
    Agrees F C (if c then t else v) (if c' then t' else v') := by
  by_cases h : c
  · rwa [if_pos h, if_pos (hc.2 h)]
  · rwa [if_neg h, if_neg fun h' => h (hc.1 h')]

theorem pushAddr (h : Agrees F C s u) : u.pushAddr = s.pushAddr := by rw [State.pushAddr, h.sp, State.pushAddr]

theorem push (h : Agrees F C s u) {f g : State → Byte}
    (hv : ∀ {s u}, Agrees F C s u → g u = f s) : Agrees F C (s.push f) (u.push g) :=
  have hsp := h.setReg Config.spIndex h.pushAddr
  hsp.writeByte h.pushAddr (hv hsp)

theorem checkPush (h : Agrees F C s u) {t t' : State} (ht : Agrees F C t t') :
    Agrees F C (s.checkPush t) (u.checkPush t') :=
  .branch (by rw [h.sp]) (h.takeFault (by rw [h.pc, h.sp])) ht

theorem popValue (h : Agrees F C s u) : u.popValue = s.popValue := by
  rw [State.popValue, h.sp, h.readByte, State.popValue]

theorem popSpAfter (h : Agrees F C s u) (dest : Option Reg) : u.popSpAfter dest = s.popSpAfter dest := by
  simp only [State.popSpAfter, h.popValue, h.sp]

theorem pop (h : Agrees F C s u) {dest : Option Reg} {write : State → Byte → State}
    (hw : ∀ v, Agrees F C (write s v) (write u v)) : Agrees F C (s.pop dest write) (u.pop dest write) :=
  .branch (by rw [h.popSpAfter]) (h.takeFault (by rw [h.pc, h.sp]))
    (h.popValue ▸ (hw s.popValue).setReg _ (by rw [h.popSpAfter]))

theorem withReg (h : Agrees F C s u) (r : Byte) {k k' : Reg → State} (hk : ∀ i, Agrees F C (k i) (k' i)) :
    Agrees F C (s.withReg r k) (u.withReg r k') := by
  unfold State.withReg
  split
  · exact h.takeFault (by rw [h.pc])
  · exact hk _

theorem withRegs (h : Agrees F C s u) (a b : Byte) {k k' : Reg → Reg → State}
    (hk : ∀ i j, Agrees F C (k i j) (k' i j)) : Agrees F C (s.withRegs a b k) (u.withRegs a b k') :=
  h.withReg a fun i => h.withReg b (hk i)

theorem takeReject (h : Agrees F C s u) (r : Reject) : Agrees F C (s.takeReject r) (u.takeReject r) := by
  cases r with
  | missingByte k => exact h.takeFault (by rw [h.pc])
  | unknownOpcode op => exact (h.emitDiag (by rw [h.pc])).advance _

end State.Agrees

/-- Only JEQ and JNE look at `FL`, and only at whether it is 1; no instruction looks at the channels (R26, R29). -/
theorem exec_agrees {F C : Prop} {i : Instr} {s u t : State} (h : s.Agrees F C u)
    (hb : (∃ r, i = .jeq r ∨ i = .jne r) → (u.fl = 1 ↔ s.fl = 1)) (hs : exec i s = .next t) :
    ∃ t', exec i u = .next t' ∧ t.Agrees F C t' := by
  cases i with
  | hlt => cases hs; exact ⟨_, rfl, h.halt.advance 0⟩
  | ret => cases hs; exact ⟨_, rfl, h.pop fun v => h.redirect rfl⟩
  | prn r => cases hs; exact ⟨_, rfl, h.withReg r fun i => (h.emitOut (h.reg i)).advance 1⟩
  | call r =>
    cases hs
    have hra : u.returnAddress = s.returnAddress := by rw [State.returnAddress, h.pc, State.returnAddress]
    have hpush : (s.push fun _ => BitVec.ofNat 8 s.returnAddress).Agrees F C
        (u.push fun _ => BitVec.ofNat 8 u.returnAddress) := h.push fun _ => by rw [hra]
    exact ⟨_, rfl, h.withReg r fun i => h.checkPush <| .branch (by rw [hra]) (h.takeFault (by rw [h.pc, hra]))
      (hpush.redirect (hpush.reg i))⟩
  | pop r => cases hs; exact ⟨_, rfl, h.withReg r fun i => h.pop fun v => (h.setReg i rfl).advance 1⟩
  | push r =>
    cases hs; exact ⟨_, rfl, h.withReg r fun i => h.checkPush <| (h.push fun ht => ht.reg i).advance 1⟩
  | jmp r => cases hs; exact ⟨_, rfl, h.withReg r fun i => h.redirect (h.reg i)⟩
  | jeq r =>
    cases hs
    exact ⟨_, rfl, h.withReg r fun i => .branch (hb ⟨r, .inl rfl⟩) (h.redirect (h.reg i)) (h.advance 1)⟩
  | jne r =>
    cases hs
    exact ⟨_, rfl, h.withReg r fun i => .branch (hb ⟨r, .inr rfl⟩) (h.advance 1) (h.redirect (h.reg i))⟩
  | inc r => cases hs; exact ⟨_, rfl, h.withReg r fun i => (h.setReg i (by rw [h.reg])).advance 1⟩
  | dec r => cases hs; exact ⟨_, rfl, h.withReg r fun i => (h.setReg i (by rw [h.reg])).advance 1⟩
  | ldi r imm => cases hs; exact ⟨_, rfl, h.withReg r fun i => (h.setReg i rfl).advance 2⟩
  | cmp a b => cases hs; exact ⟨_, rfl, h.withRegs a b fun i j => (h.setFl (by rw [h.reg, h.reg])).advance 2⟩
  | add a b => cases hs; exact ⟨_, rfl, h.withRegs a b fun i j => (h.setReg i (by rw [h.reg, h.reg])).advance 2⟩
  | mul a b => cases hs; exact ⟨_, rfl, h.withRegs a b fun i j => (h.setReg i (by rw [h.reg, h.reg])).advance 2⟩
  | div a b =>
    cases hs
    exact ⟨_, rfl, h.withRegs a b fun i j => .branch (by rw [h.reg]) (h.takeFault (by rw [h.pc]))
      ((h.setReg i (by rw [h.reg, h.reg])).advance 2)⟩

/-- A whole step keeps the agreement of two states that answer alike whether `FL` is 1. -/
theorem step_agrees {F C : Prop} {s u t : State} (h : s.Agrees F C u) (hfl : u.fl = 1 ↔ s.fl = 1)
    (hs : step s = .next t) : ∃ t', step u = .next t' ∧ t.Agrees F C t' := by
  by_cases hr : s.status = .running
  · have hu : u.status = .running := h.status.trans hr
    cases hf : s.fetch with
    | ok i rest =>
      rw [step_ok hr hf] at hs
      rw [step_ok hu (h.fetch.trans hf)]
      exact exec_agrees h (fun _ => hfl) hs
    | reject r =>
      rw [step_reject hr hf, next_inj] at hs
      exact ⟨_, step_reject hu (h.fetch.trans hf), hs ▸ h.takeReject r⟩
  · rw [step_stopped hr, next_inj] at hs
    exact ⟨u, step_stopped (h.status ▸ hr), hs ▸ h⟩

/-- A state that agrees with `s` on all but the channels is `s` with other channels. -/
theorem State.Agrees.eq_withChannels {C : Prop} {s u : State} (h : s.Agrees True C u) :
    s = { u with out := s.out, diag := s.diag } := by
  obtain ⟨hregs, hpc, hstatus, hexit, hmem, hfl, -, -⟩ := h
  rw [hregs, hpc, hstatus, hexit, hmem, hfl trivial]

/-- A state that agrees with `s` on all but `FL` is `s` with another `FL`. -/
theorem State.Agrees.eq_setFl {F : Prop} {s u : State} (h : s.Agrees F True u) : u = s.setFl u.fl := by
  obtain ⟨hregs, hpc, hstatus, hexit, hmem, -, hout, hdiag⟩ := h
  rw [State.setFl, ← hregs, ← hpc, ← hstatus, ← hexit, ← hmem, ← hout trivial, ← hdiag trivial]

end Sys2Proof.Machine
end

section
/-! The statements about the state as a whole (spec/10_state.md). -/

namespace Sys2Proof.Machine

/-- Settles O38, by the cases of a step: only CMP writes `FL`, and `pc` rises past 255 only by one advance, which
is by at most 4. -/
theorem stepKeepsPcAndFlagsInRange : Obligations.StepKeepsPcAndFlagsInRange := by
  intro s t ⟨hpc, hfl⟩ hstep
  refine ⟨?_, fun hr => ?_⟩
  · rcases step_cases hstep with ⟨-, rfl⟩ | ⟨-, f, rfl, -⟩ | ⟨-, op, rest, hb, -, rfl⟩ | ⟨-, i, rest, hf, he⟩
    · exact ⟨hpc, hfl⟩
    · exact ⟨hpc, hfl⟩
    · have hle : s.pc.toNat ≤ 255 := State.pc_le_of_fetchBytes (by simp [hb])
      have hn := operandCount_le op
      refine ⟨?_, hfl⟩
      rw [State.softFail, State.advance_pc_toNat (by rw [State.emitDiag_pc]; omega), State.emitDiag_pc]
      omega
    · refine ⟨(he.pc_le (State.pc_le_of_fetch_ok hf)).trans (by decide), ?_⟩
      rcases he.fl_cases with h | ⟨j, k, -, h⟩
      · rwa [h]
      · rw [h]; exact List.mem_cons_of_mem _ (compareFlags_mem _ _)
  · rw [step_stopped hr, next_inj] at hstep
    exact hstep.symm

/-- Settles O33, by the cases of a step: a fatal fault sets both fields, and no effect but HLT's moves the run
status. -/
theorem runEndsOnlyByHltOrFault : Obligations.RunEndsOnlyByHltOrFault := by
  intro s t hstep
  refine ⟨fun hr => ?_, fun hr hi => ?_, fun hr hi => ?_⟩
  · rw [step_stopped hr, next_inj] at hstep
    simp [hstep]
  · rw [step_of_nextInstr? hr hi, exec_hlt, next_inj] at hstep
    simp [← hstep]
  · rcases step_cases hstep with ⟨hs, -⟩ | ⟨-, f, rfl, -⟩ | ⟨-, op, rest, -, -, rfl⟩ | ⟨-, i, rest, hf, he⟩
    · exact absurd hr hs
    · exact .inr ⟨f, rfl, rfl, fatalStatus_ne_zero⟩
    · exact .inl hr
    · rcases he.status_cases with h | ⟨rfl, -⟩
      · exact .inl (h.trans hr)
      · exact absurd (State.nextInstr?_eq_some.2 ⟨rest, hf⟩) hi

/-- What a step of a running core does to `out` (R29). -/
theorem step_out {s t : State} (hr : s.status = .running) (hstep : step s = .next t) :
    (t.out = s.out ∧ ∀ i : Reg, s.nextInstr? ≠ some (.prn (regByte i))) ∨
      ∃ i : Reg, s.nextInstr? = some (.prn (regByte i)) ∧ t.out = s.out ++ [s.reg i] := by
  by_cases hp : ∃ i : Reg, s.nextInstr? = some (.prn (regByte i))
  · obtain ⟨i, hi⟩ := hp
    rw [step_of_nextInstr? hr hi, exec_prn, next_inj] at hstep
    exact .inr ⟨i, hi, by simp [← hstep]⟩
  · refine .inl ⟨?_, not_exists.1 hp⟩
    rcases step_cases hstep with ⟨-, rfl⟩ | ⟨-, f, rfl, -⟩ | ⟨-, op, rest, -, -, rfl⟩ | ⟨-, i, rest, hf, he⟩
    · rfl
    · rfl
    · rfl
    · rcases he.out_cases with h | ⟨j, rfl, -⟩
      · exact h
      · exact absurd ⟨j, State.nextInstr?_eq_some.2 ⟨rest, hf⟩⟩ hp

/-- What a step of a running core does to `diag` (R29). -/
theorem step_diag {s t : State} (hr : s.status = .running) (hstep : step s = .next t) :
    (t.diag = s.diag ∧ (∀ f, t.status ≠ .faulted f) ∧ s.nextInstr?.isSome) ∨
      (∃ op, s.fetch = .reject (.unknownOpcode op) ∧ t.diag = s.diag ++ [.unknownOpcode op s.pc]) ∨
      ∃ f, t.status = .faulted f ∧ t.diag = s.diag ++ [.fatal f] := by
  rcases step_cases hstep with ⟨hs, -⟩ | ⟨-, f, rfl, -⟩ | ⟨-, op, rest, -, hf, rfl⟩ | ⟨-, i, rest, hf, he⟩
  · exact absurd hr hs
  · exact .inr (.inr ⟨f, rfl, rfl⟩)
  · exact .inr (.inl ⟨op, hf, rfl⟩)
  · refine .inl ⟨he.diag_eq, fun f => ?_, by simp [State.nextInstr?_eq_some.2 ⟨rest, hf⟩]⟩
    rcases he.status_cases with h | ⟨-, h⟩ <;> simp [h, hr]

/-- Settles O34: two states that differ in the channels alone step alike, and a step appends as its cases say. -/
theorem channelsOnlyGrowAsStated : Obligations.ChannelsOnlyGrowAsStated := by
  refine ⟨fun s t out diag hstep => ?_, fun s t hr hstep => ⟨step_out hr hstep, step_diag hr hstep⟩⟩
  have h : s.Agrees True False { s with out := out, diag := diag } :=
    ⟨rfl, rfl, rfl, rfl, rfl, fun _ => rfl, False.elim, False.elim⟩
  obtain ⟨t', hstep', ht⟩ := step_agrees h Iff.rfl hstep
  exact ⟨t', hstep', ht.eq_withChannels⟩

/-- Settles O36: only CMP's effect writes `FL`, all of it; and two states that differ in `FL` alone are taken by
every instruction to such states, if a branch sees no difference. -/
theorem flagsFlowOnlyFromCmpToBranches : Obligations.FlagsFlowOnlyFromCmpToBranches := by
  refine ⟨fun s t hstep hne => ?_, fun i j s f => ?_, fun i s t f hi ht hb => ?_⟩
  · rcases step_cases hstep with ⟨-, rfl⟩ | ⟨-, f, rfl, -⟩ | ⟨-, op, rest, -, -, rfl⟩ | ⟨-, i, rest, hf, he⟩
    · exact absurd rfl hne
    · exact absurd rfl hne
    · exact absurd rfl hne
    · obtain hfl | ⟨j, k, rfl, -⟩ := he.fl_cases
      · exact absurd hfl hne
      · exact ⟨j, k, State.nextInstr?_eq_some.2 ⟨rest, hf⟩⟩
  · rw [exec_cmp, exec_cmp]
    rfl
  · have h : s.Agrees False True (s.setFl f) :=
      ⟨rfl, rfl, rfl, rfl, rfl, False.elim, fun _ => rfl, fun _ => rfl⟩
    obtain ⟨t', ht', hagree⟩ := exec_agrees h hb ht
    have hfl : t'.fl = f := exec_fl_of_ne_cmp hi ht'
    rw [ht', hagree.eq_setFl, hfl]

end Sys2Proof.Machine
end

section
/-! SUPPORT. The opcode map (spec/30_encoding.md R66): which first bytes the decoder rejects as unknown. -/

namespace Sys2Proof.Machine

/-- The whole byte is compared: only the last branch of `decode` rejects, and a byte reaches it by being no value of
the table; a row's branch reads operand bytes, which at worst are missing. -/
theorem decode_eq_unknown_iff (op : Byte) (rest : List Byte) :
    decode (op :: rest) = .reject (.unknownOpcode op) ↔ op.toNat ∉ opcodeValues := by
  rw [decode_cons]
  split
  case h_17 => exact iff_of_true rfl (by simp_all [opcodeValues])
  all_goals simp [opcodeValues, decodeOne_ne_unknown, decodeTwo_ne_unknown, *]

end Sys2Proof.Machine
end

section
/-! SUPPORT. On register operands 0..7 no instruction takes BAD_REG (spec/30_encoding.md R64, R83): one lemma per
operation that can take a fault, then every instruction. -/

namespace Sys2Proof.Machine

/-- Well formed means that every register operand byte is at most 7 (R64). -/
theorem wellFormed_iff {i : Instr} : i.wellFormed = true ↔ ∀ b ∈ i.regOperands, b.toNat ≤ 7 := by
  simp [Instr.wellFormed, validRegByte, Nat.lt_succ_iff]

/-- `t` comes from `s` without a BAD_REG fault: nothing is recorded, or the fault taken is of another kind. -/
def State.NoBadReg (s t : State) : Prop :=
  t.diag = s.diag ∨ ∃ f, t = s.takeFault f ∧ ∀ pc r, f ≠ .badReg pc r

namespace State.NoBadReg

variable {s t u : State}

theorem ne_takeFault (h : s.NoBadReg t) (pc : Pc) (r : Byte) : t ≠ s.takeFault (.badReg pc r) := by
  rintro rfl
  rcases h with hd | ⟨f, hf, hne⟩
  · simp at hd
  · have hs : FatalFault.badReg pc r = f := by simpa using congrArg State.status hf
    exact hne pc r hs.symm

theorem addrFault (kind : AddrKind) (pc : Pc) (addr : Nat) : s.NoBadReg (s.takeFault (.addrFault kind pc addr)) :=
  .inr ⟨_, rfl, nofun⟩

theorem divByZero (pc : Pc) (a b : Byte) : s.NoBadReg (s.takeFault (.divByZero pc a b)) :=
  .inr ⟨_, rfl, nofun⟩

theorem branch {c : Prop} [Decidable c] (ht : s.NoBadReg t) (hu : s.NoBadReg u) :
    s.NoBadReg (if c then t else u) := by
  split
  · exact ht
  · exact hu

theorem checkPush (ht : s.NoBadReg t) : s.NoBadReg (s.checkPush t) := branch (addrFault ..) ht

theorem pop {dest : Option Reg} {write : State → Byte → State} (hw : ∀ v, (write s v).diag = s.diag) :
    s.NoBadReg (s.pop dest write) := branch (addrFault ..) (.inl (hw _))

theorem withReg {r : Byte} {k : Reg → State} (hr : ∀ b ∈ [r], b.toNat ≤ 7) (hk : ∀ i, s.NoBadReg (k i)) :
    s.NoBadReg (s.withReg r k) := by
  obtain ⟨i, rfl⟩ := exists_regByte (hr r (List.mem_singleton_self r))
  rw [withReg_regByte]
  exact hk i

theorem withRegs {a b : Byte} {k : Reg → Reg → State} (hab : ∀ r ∈ [a, b], r.toNat ≤ 7)
    (hk : ∀ i j, s.NoBadReg (k i j)) : s.NoBadReg (s.withRegs a b k) :=
  withReg (fun r hr => hab r (List.mem_append_left [b] hr)) fun i =>
    withReg (fun r hr => hab r (List.mem_cons_of_mem a hr)) (hk i)

end State.NoBadReg

/-- A well-formed instruction takes no BAD_REG: its operand checks pass, and the stack, CALL's return address and a
zero divisor raise other faults. -/
theorem exec_noBadReg {i : Instr} {s t : State} (hi : i.wellFormed = true) (h : exec i s = .next t) :
    s.NoBadReg t := by
  have hv := wellFormed_iff.1 hi
  cases i with
  | hlt => cases h; exact .inl rfl
  | ret => cases h; exact .pop fun _ => rfl
  | prn | jmp | inc | dec | ldi => cases h; exact .withReg hv fun _ => .inl rfl
  | jeq | jne => cases h; exact .withReg hv fun _ => .branch (.inl rfl) (.inl rfl)
  | push => cases h; exact .withReg hv fun _ => .checkPush (.inl rfl)
  | pop => cases h; exact .withReg hv fun _ => .pop fun _ => rfl
  | call => cases h; exact .withReg hv fun _ => .checkPush (.branch (.addrFault ..) (.inl rfl))
  | cmp | add | mul => cases h; exact .withRegs hv fun _ _ => .inl rfl
  | div => cases h; exact .withRegs hv fun _ _ => .branch (.divByZero ..) (.inl rfl)

end Sys2Proof.Machine
end

section
/-! The statements about the encoding (spec/30_encoding.md). -/

namespace Sys2Proof.Machine

/-- Settles O24: `exec_badReg` is the first part, and the operand checks of a well-formed instruction all pass. -/
theorem badRegisterByteFaultsBeforeAnything : Obligations.BadRegisterByteFaultsBeforeAnything :=
  ⟨fun _ _ _ hr => exec_badReg hr, fun _ _ _ pc r hi h => (exec_noBadReg hi h).ne_takeFault pc r⟩

/-- Settles O29: each row is read off the definitions, and `decode_eq_unknown_iff` is the rest. -/
theorem opcodeMapIsTheTable : Obligations.OpcodeMapIsTheTable := by
  refine ⟨fun a b => ?_, decode_eq_unknown_iff⟩
  simp only [List.forall_mem_cons]
  simp [opcodeByte, operandCount_eq, Instr.format]

end Sys2Proof.Machine
end

section
/-! SUPPORT. What the decoder answers, in terms of the encoder (spec/30_encoding.md R60 to R67): the bytes it reads an
instruction from, and the byte it misses. -/

namespace Sys2Proof.Machine

/-- The operand bytes are `N`, bits 7:6 of the opcode byte (R61). -/
theorem operandBytes_length (i : Instr) : (operandBytes i).length = operandCount (opcodeByte i) := by
  cases i <;> simp [operandBytes, opcodeByte, operandCount_eq]

/-- The opcode byte of every instruction is in the map (R66). -/
theorem opcodeByte_mem (i : Instr) : (opcodeByte i).toNat ∈ opcodeValues := by
  cases i <;> simp [opcodeByte, opcodeValues]

/-- An instruction in the map has at most two operand bytes (R60). -/
theorem operandCount_le_two {op : Byte} (hop : op.toNat ∈ opcodeValues) : operandCount op ≤ 2 := by
  have hmap : ∀ v ∈ opcodeValues, v / 64 ≤ 2 := by decide
  rw [operandCount_eq]
  exact hmap _ hop

/-- An instruction is decoded from its own bytes and no others. -/
theorem decode_ok {bs rest : List Byte} {i : Instr} (h : decode bs = .ok i rest) : bs = encode i ++ rest := by
  cases bs with
  | nil => cases h
  | cons op bs =>
    rw [decode_cons] at h
    split at h
    case h_1 hop | h_2 hop => cases h; exact congrArg (· :: rest) (BitVec.eq_of_toNat_eq hop)
    case h_12 hop | h_13 hop | h_14 hop | h_15 hop | h_16 hop =>
      obtain ⟨a, b, rfl, rfl⟩ := decodeTwo_ok h
      exact congrArg (· :: a :: b :: rest) (BitVec.eq_of_toNat_eq hop)
    case h_17 => cases h
    all_goals
      rename_i hop
      obtain ⟨a, rfl, rfl⟩ := decodeOne_ok h
      exact congrArg (· :: a :: rest) (BitVec.eq_of_toNat_eq hop)

theorem decodeOne_missing {mk : Byte → Instr} {bs : List Byte} {k : Nat}
    (h : decodeOne mk bs = .reject (.missingByte k)) : k = bs.length + 1 ∧ bs.length < 1 := by
  cases bs with
  | nil => cases h; decide
  | cons a bs => cases h

theorem decodeTwo_missing {mk : Byte → Byte → Instr} {bs : List Byte} {k : Nat}
    (h : decodeTwo mk bs = .reject (.missingByte k)) : k = bs.length + 1 ∧ bs.length < 2 := by
  match bs, h with
  | [], h => cases h; simp
  | [_], h => cases h; simp
  | _ :: _ :: _, h => cases h

/-- The missing byte is the one after the last, and it is an operand byte the opcode uses (R82). -/
theorem decode_missing {op : Byte} {bs : List Byte} {k : Nat}
    (h : decode (op :: bs) = .reject (.missingByte k)) : k = bs.length + 1 ∧ bs.length < operandCount op := by
  rw [decode_cons] at h
  rw [operandCount_eq]
  split at h
  case h_1 | h_2 | h_17 => cases h
  case h_12 hop | h_13 hop | h_14 hop | h_15 hop | h_16 hop => rw [hop]; exact decodeTwo_missing h
  all_goals
    rename_i hop
    rw [hop]
    exact decodeOne_missing h

/-- All the decoder can answer on an opcode of the map: the instruction of the opcode byte and its operand bytes, or
the first operand byte that is missing. -/
theorem decode_known_cases {op : Byte} (bs : List Byte) (hop : op.toNat ∈ opcodeValues) :
    (operandCount op ≤ bs.length ∧
      ∃ i rest, decode (op :: bs) = .ok i rest ∧ encode i = op :: bs.take (operandCount op)) ∨
    (bs.length < operandCount op ∧ decode (op :: bs) = .reject (.missingByte (bs.length + 1))) := by
  cases hd : decode (op :: bs) with
  | ok i rest =>
    obtain ⟨rfl, rfl⟩ : op = opcodeByte i ∧ bs = operandBytes i ++ rest := List.cons.inj (decode_ok hd)
    rw [← operandBytes_length, List.take_left' rfl]
    exact .inl ⟨by simp, i, rest, rfl, rfl⟩
  | reject r =>
    cases r with
    | missingByte k =>
      obtain ⟨rfl, hlt⟩ := decode_missing hd
      exact .inr ⟨hlt, rfl⟩
    | unknownOpcode op' =>
      obtain ⟨rest, hb⟩ := decode_unknown hd
      obtain ⟨rfl, -⟩ := List.cons.inj hb
      exact absurd hop ((decode_eq_unknown_iff _ _).1 hd)

/-- The first operand byte of a format with operands is its first register operand (R63). -/
theorem regOperands_of_ne_f0 {i : Instr} {a b : Byte} (hi : i.format ≠ .f0) (h : operandBytes i <+: [a, b]) :
    ∃ l, i.regOperands = a :: l := by
  cases i with
  | hlt | ret => exact absurd rfl hi
  | _ => obtain ⟨rfl, -⟩ := List.cons_prefix_cons.1 h; exact ⟨_, rfl⟩

/-- Both operand bytes of format RR are register operands (R63). -/
theorem regOperands_of_rr {i : Instr} {a b : Byte} (hi : i.format = .rr) (h : operandBytes i <+: [a, b]) :
    i.regOperands = [a, b] := by
  cases i with
  | cmp | add | mul | div => exact h.eq_of_length rfl
  | _ => cases hi

end Sys2Proof.Machine
end

section
/-! SUPPORT. The step of a running core by where `pc` is and what opcode byte stands there (spec/40_dispatcher.md R81 to
R86). -/

namespace Sys2Proof.Machine

/-- The two bytes after `pc`: as many as an instruction can use as operand bytes (R60). -/
def State.operandsAtPc (s : State) : List Byte :=
  [s.readByte (BitVec.ofNat 8 (s.pc.toNat + 1)), s.readByte (BitVec.ofNat 8 (s.pc.toNat + 2))]

theorem State.operandsAtPc_take_length (s : State) (n : Nat) : (s.operandsAtPc.take n).length = min n 2 :=
  List.length_take

/-- Inside memory the opcode byte is fetched, and the two bytes after it as far as memory reaches (R81, R82). -/
theorem State.fetchBytes_eq {s : State} (hp : s.pc.toNat ≤ 255) :
    s.fetchBytes = s.readByte (BitVec.ofNat 8 s.pc.toNat) :: s.operandsAtPc.take (255 - s.pc.toNat) := by
  obtain h | h | h : s.pc.toNat ≤ 253 ∨ s.pc.toNat = 254 ∨ s.pc.toNat = 255 := by omega
  · rw [State.fetchBytes_three h, List.take_of_length_le (show 2 ≤ 255 - s.pc.toNat by omega)]; rfl
  · rw [State.fetchBytes_two h, State.operandsAtPc, h]; rfl
  · rw [State.fetchBytes_one h, h]; rfl

theorem State.fetch_eq {s : State} {op : Byte} (hp : s.pc.toNat ≤ 255)
    (hb : s.readByte (BitVec.ofNat 8 s.pc.toNat) = op) :
    s.fetch = decode (op :: s.operandsAtPc.take (255 - s.pc.toNat)) := by
  rw [State.fetch, State.fetchBytes_eq hp, hb]

/-- The opcode of a fetched instruction is the byte at `pc`. -/
theorem State.readByte_pc_of_fetch_ok {s : State} {i : Instr} {rest : List Byte} (h : s.fetch = .ok i rest) :
    s.readByte (BitVec.ofNat 8 s.pc.toNat) = opcodeByte i := by
  have hb := decode_ok h
  rw [State.fetchBytes_eq (State.pc_le_of_fetch_ok h)] at hb
  exact (List.cons.inj hb).1

/-- Past the top the opcode itself cannot be fetched (R82). -/
theorem step_pastTop {s : State} (hr : s.status = .running) (hp : 255 < s.pc.toNat) :
    step s = .next (s.takeFault (.addrFault .fetch s.pc s.pc.toNat)) :=
  step_reject hr (r := .missingByte 0) (by rw [State.fetch, State.fetchBytes_none hp]; rfl)

/-- An opcode outside the map is the soft failure (R86). -/
theorem step_unknownOpcode {s : State} {op : Byte} (hr : s.status = .running) (hp : s.pc.toNat ≤ 255)
    (hb : s.readByte (BitVec.ofNat 8 s.pc.toNat) = op) (hop : op.toNat ∉ opcodeValues) :
    step s = .next (s.softFail op (operandCount op)) :=
  step_reject hr (r := .unknownOpcode op)
    ((State.fetch_eq hp hb).trans ((decode_eq_unknown_iff _ _).2 hop))

/-- With an opcode of the map so near the top that an operand byte lies past 255, the first such address is 256. -/
theorem fetchFaultsPastTop {op : Byte} (hop : op.toNat ∈ opcodeValues) : FetchFaultsPastTop op := by
  intro s hr hp hb hn
  have h2 := operandCount_le_two hop
  have hlen := s.operandsAtPc_take_length (255 - s.pc.toNat)
  rcases decode_known_cases (s.operandsAtPc.take (255 - s.pc.toNat)) hop with ⟨hle, -⟩ | ⟨-, hd⟩
  · omega
  · have h256 : s.pc.toNat + ((s.operandsAtPc.take (255 - s.pc.toNat)).length + 1) = 256 := by omega
    rw [step_reject hr ((State.fetch_eq hp hb).trans hd), State.takeReject, h256]

/-- With an opcode of the map and its operand bytes inside memory, the step is the meaning of the instruction whose
bytes they are (R88). -/
theorem step_known {s : State} {op : Byte} (hr : s.status = .running)
    (hb : s.readByte (BitVec.ofNat 8 s.pc.toNat) = op) (hop : op.toNat ∈ opcodeValues)
    (hn : s.pc.toNat + operandCount op ≤ 255) :
    ∃ i, encode i = op :: s.operandsAtPc.take (operandCount op) ∧ step s = exec i s := by
  have h2 := operandCount_le_two hop
  have hlen := s.operandsAtPc_take_length (255 - s.pc.toNat)
  rcases decode_known_cases (s.operandsAtPc.take (255 - s.pc.toNat)) hop with ⟨-, i, rest, hd, he⟩ | ⟨hlt, -⟩
  · rw [List.take_take, Nat.min_eq_left (by omega)] at he
    exact ⟨i, he, step_ok hr ((State.fetch_eq (by omega) hb).trans hd)⟩
  · omega

/-- The soft failure's advance is not reduced (R84). -/
theorem State.softFail_pc_toNat {s : State} (op : Byte) (hp : s.pc.toNat ≤ 255) :
    (s.softFail op (operandCount op)).pc.toNat = s.pc.toNat + 1 + operandCount op := by
  have hn := operandCount_le op
  exact State.advance_pc_toNat (s := s.emitDiag _) (by rw [State.emitDiag_pc]; omega)

/-- An effect that does not redirect advances past the instruction's own bytes (R84). -/
theorem Effect.pc_toNat {i : Instr} {s t : State} (h : Effect i s t) (hp : s.pc.toNat ≤ 255)
    (hi : ¬ Redirects i s) : t.pc.toNat = s.pc.toNat + 1 + operandCount (opcodeByte i) := by
  have hadv (u : State) (n : Nat) (hu : u.pc = s.pc) (hn : n ≤ 2) :
      (u.advance n).pc.toNat = s.pc.toNat + 1 + n := by
    rw [State.advance_pc_toNat (by rw [hu]; omega), hu]
  rw [← operandBytes_length]
  cases h with
  | ret | call | jmp => exact absurd trivial hi
  | jeqTaken _ _ hfl | jneTaken _ _ hfl => exact absurd hfl hi
  | _ => exact hadv _ _ rfl (by decide)

end Sys2Proof.Machine
end

section
/-! The statements about the dispatcher (spec/40_dispatcher.md). -/

namespace Sys2Proof.Machine

/-- Settles O22: each clause is what the step does there, and BAD_REG is read off the operand bytes of the instruction
that the bytes at `pc` encode. -/
theorem stepFollowsTheDispatcher : Obligations.StepFollowsTheDispatcher := by
  intro s hr at' n
  have hn : n = operandCount (at' 0) := (operandCount_eq _).symm
  refine ⟨step_pastTop hr, fun hp hop => hn ▸ step_unknownOpcode hr hp rfl hop, fun hp hop => ⟨?_, fun hle => ?_⟩⟩
  · intro k h1 hk htop hlow
    have h256 : s.pc.toNat + k = 256 := by have := hlow (k - 1) (by omega); omega
    rw [h256]
    exact fetchFaultsPastTop hop s hr hp rfl (by omega)
  · rw [hn] at hle ⊢
    obtain ⟨i, he, hstep⟩ := step_known hr rfl hop hle
    have hbytes : operandBytes i <+: [at' 1, at' 2] := (List.cons.inj he).2 ▸ List.take_prefix _ _
    refine ⟨i, he, fun hi h1 => ?_, fun hi h1 h2 => ?_, fun _ => hstep⟩
    · obtain ⟨l, hl⟩ := regOperands_of_ne_f0 hi hbytes
      rw [hstep, exec_badReg (by rw [hl, List.find?_cons_of_pos (by simpa using h1)])]
    · rw [hstep, exec_badReg (r := at' 2) (by simp [regOperands_of_rr hi hbytes, h1, h2])]

/-- Settles O23: the lowest operand address past the top is 256. -/
theorem fetchFaultsOffTheTop : Obligations.FetchFaultsOffTheTop := by
  intro s hr
  refine ⟨step_pastTop hr, fun i k hp hb h1 hk htop hlow => ?_⟩
  have h256 : s.pc.toNat + k = 256 := by
    by_cases hk1 : k = 1
    · omega
    · have := hlow (k - 1) (by omega) (by omega); omega
  rw [h256]
  exact fetchFaultsPastTop (opcodeByte_mem i) s hr hp hb (by omega)

/-- Settles O25: the step is the soft failure, whose fields are its record and its advance. -/
theorem unknownOpcodeIsLoggedAndSkipped : Obligations.UnknownOpcodeIsLoggedAndSkipped := by
  intro s op hr hp hb hop
  have hpc : (s.softFail op (operandCount op)).pc.toNat = s.pc.toNat + 1 + op.toNat / 64 :=
    operandCount_eq op ▸ State.softFail_pc_toNat op hp
  exact ⟨_, step_unknownOpcode hr hp hb hop, rfl, hpc, fun _ _ => rfl, fun _ => rfl, rfl, hr, rfl, rfl⟩

/-- Settles O26, by the cases of a step: the soft failure and every effect that does not redirect advance by the
opcode's own count. -/
theorem genericAdvanceByOperandCount : Obligations.GenericAdvanceByOperandCount := by
  intro s t hr hstep hi
  rw [← operandCount_eq]
  rcases step_cases hstep with ⟨hs, -⟩ | ⟨-, f, rfl, -⟩ | ⟨-, op, rest, hb, -, rfl⟩ | ⟨-, i, rest, hf, he⟩
  · exact absurd hr hs
  · exact .inr ⟨f, rfl⟩
  · have hp : s.pc.toNat ≤ 255 := State.pc_le_of_fetchBytes (by simp [hb])
    rw [State.fetchBytes_eq hp] at hb
    rw [(List.cons.inj hb).1]
    exact .inl (State.softFail_pc_toNat op hp)
  · rw [State.readByte_pc_of_fetch_ok hf]
    exact .inl (he.pc_toNat (State.pc_le_of_fetch_ok hf) (hi i (State.nextInstr?_eq_some.2 ⟨rest, hf⟩)))

end Sys2Proof.Machine
end

section
/-! SUPPORT. The stack instructions on register operands (spec/41_stack.md R100 to R103): the check of the operand byte,
where SP goes, and what a completed PUSH and POP leave in a register and in a byte of memory. -/

namespace Sys2Proof.Machine

/-- A one-register instruction checks its register byte first (R64, R83). -/
theorem badRegOne {mk : Byte → Instr} (hmk : ∀ r, (mk r).regOperands = [r]) : BadRegOne mk :=
  fun r _ hr => exec_badReg (by rw [hmk, List.find?_cons_of_pos (by simpa using hr)])

theorem State.sp_ne_zero {s : State} (h : 1 ≤ s.sp.toNat) : s.sp ≠ 0 := fun h0 => by
  rw [h0] at h
  exact absurd h (by decide)

/-- A pop's increment leads from the address pushed to back to SP (R100, R101). -/
theorem State.pushAddr_toNat_add_one {s : State} (h : s.sp ≠ 0) : s.pushAddr.toNat + 1 = s.sp.toNat := by
  have hpos : s.sp.toNat ≠ 0 := fun h0 => h (BitVec.eq_of_toNat_eq h0)
  rw [State.pushAddr_toNat h]; omega

/-- SP after a POP, both forms in one (R101, R103). -/
theorem State.popSpAfter_some (s : State) (i : Reg) :
    s.popSpAfter (some i) = (if i = 7 then s.readByte s.sp else s.sp).toNat + 1 := by
  by_cases hi : i = 7
  · rw [hi, State.popSpAfter_sp, if_pos rfl, State.popValue]
  · rw [State.popSpAfter_of_ne (by simpa using hi), if_neg hi]

/-- A POP not through R7, by the byte on top of the stack and the SP above it (R103). -/
theorem exec_pop_of_top {j : Reg} {s : State} {v sp : Byte} (hj : j ≠ 7) (hv : s.readByte s.sp = v)
    (hsp : s.sp.toNat + 1 = sp.toNat) :
    exec (.pop (regByte j)) s = .next (((s.setReg j v).advance 1).setSp sp) := by
  have hafter : s.popSpAfter (some j) = sp.toNat := by rw [State.popSpAfter_some, if_neg hj, hsp]
  have := sp.isLt
  rw [exec_pop_next (by omega), hafter, State.popValue, hv, BitVec.ofNat_toNat, BitVec.setWidth_eq]

/-- The byte a PUSH stores is read after the decrement (R102). -/
theorem State.pushReg_readByte (s : State) (i : Reg) (b : Byte) :
    (s.push fun t => t.reg i).readByte b =
      if b = s.pushAddr then (if i = 7 then s.pushAddr else s.reg i) else s.readByte b := by
  rw [State.push_readByte, State.setSp_reg]

end Sys2Proof.Machine
end

section
/-! The statements about the stack (spec/41_stack.md). -/

namespace Sys2Proof.Machine

/-- Settles O7, by the two sides of the push's check. -/
theorem pushStoresBelowSpOrFaults : Obligations.PushStoresBelowSpOrFaults := by
  refine ⟨fun _ => rfl, badRegOne fun _ => rfl, fetchFaultsPastTop (by decide), fun i s => ⟨exec_push_fault, ?_⟩⟩
  intro h0 hp
  refine ⟨_, exec_push_next h0, ?_, ?_, State.advance_pc_toNat (by rw [State.push_pc]; omega), rfl⟩
  · rw [State.advance_sp, State.push_sp, State.pushAddr_toNat h0]
  · rw [State.advance_readByte, State.advance_sp, State.push_sp, State.pushReg_readByte, if_pos rfl]

/-- Settles O8, by the two sides of the pop's check; a completed POP writes SP last, so the destination holds the popped
byte unless it is SP itself. -/
theorem popLoadsFromSpOrFaults : Obligations.PopLoadsFromSpOrFaults := by
  refine ⟨fun _ => rfl, badRegOne fun _ => rfl, fetchFaultsPastTop (by decide), ?_⟩
  rintro i s v after rfl hafter
  rw [← State.popSpAfter_some] at hafter
  subst hafter
  refine ⟨exec_pop_fault, fun hle hp => ⟨_, exec_pop_next hle, fun hi => ?_, ?_, rfl, ?_, rfl⟩⟩
  · simp [hi, State.popValue]
  · rw [State.setSp_sp, BitVec.toNat_ofNat, Nat.mod_eq_of_lt (by omega)]
  · rw [State.setSp_pc, State.advance_pc_toNat (by rw [State.setReg_pc]; omega), State.setReg_pc]

/-- Settles O42: the PUSH leaves the value at the new SP, so the POP takes that byte and its increment gives back the
old SP. -/
theorem pushThenPopRoundTrip : Obligations.PushThenPopRoundTrip := by
  intro i j s hi hj hsp
  have h0 : s.sp ≠ 0 := State.sp_ne_zero hsp
  have hread (b : Byte) : ((s.push fun t => t.reg i).advance 1).readByte b =
      if b = s.pushAddr then s.reg i else s.readByte b := by
    rw [State.advance_readByte, State.pushReg_readByte, if_neg hi]
  refine ⟨_, _, exec_push_next h0, exec_pop_of_top (v := s.reg i) (sp := s.sp) hj ?top ?above,
    State.setSp_sp _ _, ?_, fun k hk => ?_, (hread _).trans (if_pos rfl), fun a ha => (hread a).trans (if_neg ha)⟩
  case top => rw [State.advance_sp, State.push_sp, hread, if_pos rfl]
  case above => rw [State.advance_sp, State.push_sp, State.pushAddr_toNat_add_one h0]
  · simp [hj]
  · by_cases hk7 : k = 7
    · rw [hk7]; exact State.setSp_sp _ _
    · simp [hk, hk7]

end Sys2Proof.Machine
end

section
/-! SUPPORT. The ALU instructions on register operands (spec/42_alu.md R110 to R116): the check of two operand bytes, what
a result written to a register leaves there, and the advance over the operand bytes. -/

namespace Sys2Proof.Machine

/-- A two-register instruction checks `ra` first, then `rb` (R64, R83). -/
theorem badRegTwo {mk : Byte → Byte → Instr} (hmk : ∀ a b, (mk a b).regOperands = [a, b]) : BadRegTwo mk := by
  refine fun a b s => ⟨fun ha => exec_badReg ?_, fun ha hb => exec_badReg ?_⟩
  · rw [hmk, List.find?_cons_of_pos (by simpa using ha)]
  · rw [hmk, List.find?_cons_of_neg (by simpa using ha), List.find?_cons_of_pos (by simpa using hb)]

/-- The advance keeps the result in its register. -/
theorem State.setReg_advance_reg (s : State) (i : Reg) (v : Byte) (n : Nat) :
    ((s.setReg i v).advance n).reg i = v := by
  rw [State.advance_reg, State.setReg_reg, if_pos rfl]

/-- From a `pc` inside memory the advance over one or two operand bytes is exact (R84). -/
theorem State.advance_pc_toNat_of_le {s : State} {n : Nat} (hp : s.pc.toNat ≤ 255) (hn : n ≤ 2) :
    (s.advance n).pc.toNat = s.pc.toNat + 1 + n :=
  State.advance_pc_toNat (by omega)

/-- DEC's result as R115 writes it: the difference in the integers, reduced mod 256. -/
theorem aluDec_toNat_int (x : Byte) : ((aluDec x).toNat : Int) = (x.toNat - 1 : Int) % 256 := by
  rw [aluDec_toNat]; omega

end Sys2Proof.Machine
end

section
/-! The statements about the ALU (spec/42_alu.md). -/

namespace Sys2Proof.Machine

/-- Settles O1: the effect of ADD writes `aluAdd` of the two registers, whose value is the sum mod 256. -/
theorem addWritesSumMod256 : Obligations.AddWritesSumMod256 := by
  refine ⟨fun _ _ => rfl, badRegTwo fun _ _ => rfl, fetchFaultsPastTop (by decide), fun i j s hp => ?_⟩
  refine ⟨_, exec_add i j s, ?_, State.advance_pc_toNat_of_le hp le_rfl, rfl⟩
  rw [State.setReg_advance_reg, aluAdd_toNat]

/-- Settles O2: the effect of MUL writes `aluMul` of the two registers, whose value is the product mod 256. -/
theorem mulWritesProductMod256 : Obligations.MulWritesProductMod256 := by
  refine ⟨fun _ _ => rfl, badRegTwo fun _ _ => rfl, fetchFaultsPastTop (by decide), fun i j s hp => ?_⟩
  refine ⟨_, exec_mul i j s, ?_, State.advance_pc_toNat_of_le hp le_rfl, rfl⟩
  rw [State.setReg_advance_reg, aluMul_toNat]

/-- Settles O3, by the two sides of the divisor test; the quotient of two bytes is a byte, so it is not reduced. -/
theorem divWritesQuotientOrFaultsOnZero : Obligations.DivWritesQuotientOrFaultsOnZero := by
  refine ⟨fun _ _ => rfl, badRegTwo fun _ _ => rfl, fetchFaultsPastTop (by decide), fun i j s => ⟨exec_div_zero, ?_⟩⟩
  intro h0 hp
  refine ⟨_, exec_div_next h0, ?_, State.advance_pc_toNat_of_le hp le_rfl, rfl⟩
  rw [State.setReg_advance_reg, aluDiv_toNat]

/-- Settles O4: INC writes any register alike, SP included, with no check of the stack. -/
theorem incAddsOneMod256 : Obligations.IncAddsOneMod256 := by
  refine ⟨fun _ => rfl, badRegOne fun _ => rfl, fetchFaultsPastTop (by decide), fun i s hp => ?_⟩
  refine ⟨_, exec_inc i s, ?_, State.advance_pc_toNat_of_le hp one_le_two, rfl⟩
  rw [State.setReg_advance_reg, aluInc_toNat]

/-- Settles O5: DEC writes any register alike, and `aluDec_toNat_int` covers the wrap from 0 to 255. -/
theorem decSubtractsOneMod256 : Obligations.DecSubtractsOneMod256 := by
  refine ⟨fun _ => rfl, badRegOne fun _ => rfl, fetchFaultsPastTop (by decide), fun i s hp => ?_⟩
  refine ⟨_, exec_dec i s, ?_, State.advance_pc_toNat_of_le hp one_le_two, rfl⟩
  rw [State.setReg_advance_reg, aluDec_toNat_int]

/-- Settles O6, by the three relations of the two values; the only field CMP writes beside `pc` is `FL`. -/
theorem cmpSetsExactlyOneOutcome : Obligations.CmpSetsExactlyOneOutcome := by
  refine ⟨fun _ _ => rfl, badRegTwo fun _ _ => rfl, fetchFaultsPastTop (by decide), fun i j s hp => ?_⟩
  exact ⟨_, exec_cmp i j s, fun heq => compareFlags_of_eq (BitVec.eq_of_toNat_eq heq), compareFlags_of_gt,
    compareFlags_of_lt, fun _ => rfl, State.advance_pc_toNat_of_le hp le_rfl⟩

end Sys2Proof.Machine
end

section
/-! SUPPORT. The control transfers on register operands (spec/43_control.md R130 to R136): where a redirect goes, the byte
a CALL leaves on the stack, and RET by what stands there. -/

namespace Sys2Proof.Machine

/-- A redirect goes exactly to its target (R136). -/
theorem State.redirect_pc_toNat (s : State) (v : Byte) : (s.redirect v).pc.toNat = v.toNat := by
  rw [State.redirect_pc, ofNat9_toNat]

/-- A pushed value that needs no register is the byte at the new SP (R100). -/
theorem State.push_const_readByte_sp (s : State) (v : Byte) :
    (s.push fun _ => v).readByte (s.push fun _ => v).sp = v := by
  rw [State.push_readByte, State.push_sp, if_pos rfl]

/-- A RET, by the byte on top of the stack and the SP above it (R131). -/
theorem exec_ret_of_top {s : State} {v sp : Byte} (hv : s.readByte s.sp = v) (hsp : s.sp.toNat + 1 = sp.toNat) :
    exec .ret s = .next ((s.redirect v).setSp sp) := by
  have := sp.isLt
  rw [exec_ret_next (by omega), hsp, State.popValue, hv, BitVec.ofNat_toNat, BitVec.setWidth_eq]

end Sys2Proof.Machine
end

section
/-! The statements about control transfer (spec/43_control.md). -/

namespace Sys2Proof.Machine

/-- Settles O9, by the checks of CALL in R154's order; a return address that passes its check is a byte. -/
theorem callPushesReturnAddressAndJumps : Obligations.CallPushesReturnAddressAndJumps := by
  refine ⟨fun _ => rfl, badRegOne fun _ => rfl, fetchFaultsPastTop (by decide), fun i s => ?_⟩
  refine ⟨exec_call_stack, exec_call_returnAddress, fun h0 hr => ⟨_, exec_call_next h0 hr, ?_, ?_, ?_, rfl⟩⟩
  · rw [State.redirect_sp, State.push_sp, State.pushAddr_toNat h0]
  · rw [State.redirect_readByte, State.redirect_sp, State.push_const_readByte_sp, BitVec.toNat_ofNat,
      Nat.mod_eq_of_lt (by omega)]
  · rw [State.redirect_pc_toNat, State.redirect_sp, State.push_sp]

/-- Settles O10, by the two sides of the pop's check. -/
theorem retPopsPc : Obligations.RetPopsPc := by
  refine ⟨rfl, fun s => step_pastTop, fun s => ⟨fun htop => ?_, fun hlt => ?_⟩⟩
  · rw [exec_ret_fault (by omega), htop]
  · have hsp : (BitVec.ofNat 8 (s.sp.toNat + 1)).toNat = s.sp.toNat + 1 := by
      rw [BitVec.toNat_ofNat, Nat.mod_eq_of_lt (by omega)]
    refine ⟨_, exec_ret_of_top rfl hsp.symm, ?_, ?_, rfl⟩
    · rw [State.setSp_pc, State.redirect_pc_toNat]
    · rw [State.setSp_sp, hsp]

/-- Settles O11: JMP redirects whatever the state. -/
theorem jmpGoesToRegister : Obligations.JmpGoesToRegister :=
  ⟨fun _ => rfl, badRegOne fun _ => rfl, fetchFaultsPastTop (by decide), fun i s =>
    ⟨_, exec_jmp i s, State.redirect_pc_toNat s _, rfl⟩⟩

/-- Settles O12: the redirect where `FL` = 1, the advance where it is not. -/
theorem jeqBranchesIffEqual : Obligations.JeqBranchesIffEqual := by
  refine ⟨fun _ => rfl, badRegOne fun _ => rfl, fetchFaultsPastTop (by decide), fun i s hp => ?_⟩
  refine ⟨_, exec_jeq i s, fun htaken => ?_, fun hnot => ?_, exec_fl_of_ne_cmp (by simp) (exec_jeq i s)⟩
  · rw [if_pos htaken, State.redirect_pc_toNat]
  · rw [if_neg hnot]; exact State.advance_pc_toNat_of_le hp one_le_two

/-- Settles O13: the redirect where `FL` is not 1, the advance where it is. -/
theorem jneBranchesIffNotEqual : Obligations.JneBranchesIffNotEqual := by
  refine ⟨fun _ => rfl, badRegOne fun _ => rfl, fetchFaultsPastTop (by decide), fun i s hp => ?_⟩
  refine ⟨_, exec_jne i s, fun htaken => ?_, fun hnot => ?_, exec_fl_of_ne_cmp (by simp) (exec_jne i s)⟩
  · rw [if_neg htaken, State.redirect_pc_toNat]
  · rw [if_pos hnot]; exact State.advance_pc_toNat_of_le hp one_le_two

/-- Settles O43, from what O9 says of the CALL's SP and slot: the RET takes the slot's byte into `pc`, its increment
gives back the SP before the CALL, and it stores nothing. -/
theorem callThenRetReturns : Obligations.CallThenRetReturns := by
  intro i s hp hs
  obtain ⟨-, -, -, hcall⟩ := callPushesReturnAddressAndJumps
  obtain ⟨-, -, hnext⟩ := hcall i s
  obtain ⟨t, ht, htsp, hslot, -, -⟩ := hnext (State.sp_ne_zero hs) (by omega)
  refine ⟨t, ht, fun u husp hu => ?_⟩
  have hsame : u.sp = t.sp := BitVec.eq_of_toNat_eq (husp.trans htsp.symm)
  have htop : (u.readByte u.sp).toNat = s.pc.toNat + 2 := by rw [hu, hsame, hslot]
  refine ⟨_, exec_ret_of_top (sp := s.sp) rfl (by omega), ?_, State.setSp_sp _ _, htop⟩
  rw [State.setSp_pc, State.redirect_pc_toNat, htop]

end Sys2Proof.Machine
end

section
/-! The statements about data movement and system (spec/44_data_system.md). -/

namespace Sys2Proof.Machine

/-- Settles O14: LDI writes any register alike, SP included, and the register byte is the only operand it checks. -/
theorem ldiLoadsImmediate : Obligations.LdiLoadsImmediate := by
  refine ⟨fun _ _ => rfl, fetchFaultsPastTop (by decide), fun r imm => ?_, fun i imm s hp => ?_⟩
  · exact badRegOne (mk := fun r => .ldi r imm) (fun _ => rfl) r
  · exact ⟨_, exec_ldi i imm s, State.setReg_advance_reg s i imm 2, State.advance_pc_toNat_of_le hp le_rfl, rfl⟩

/-- Settles O15: the only fields PRN writes are the output and `pc`. -/
theorem prnAppendsRegisterToOutput : Obligations.PrnAppendsRegisterToOutput := by
  refine ⟨fun _ => rfl, badRegOne fun _ => rfl, fetchFaultsPastTop (by decide), fun i s hp => ?_⟩
  exact ⟨_, exec_prn i s, rfl, fun _ => rfl, fun _ => rfl, State.advance_pc_toNat_of_le hp one_le_two, rfl⟩

/-- Settles O16: HLT leaves a core that is not running, which answers every further step with itself. -/
theorem hltHaltsCleanly : Obligations.HltHaltsCleanly := by
  refine ⟨rfl, fun s => step_pastTop, fun s hp => ?_⟩
  have hstopped : (s.halt.advance 0).status ≠ .running := by simp
  refine ⟨_, exec_hlt s, rfl, rfl, State.advance_pc_toNat_of_le hp (Nat.zero_le 2), rfl, fun u hu => ?_⟩
  rw [step_stopped hstopped, next_inj] at hu
  exact hu.symm

end Sys2Proof.Machine
end

section
/-! The statement about exceptions (spec/60_exceptions.md). -/

namespace Sys2Proof.Machine

/-- A running core's step ends FAULTED only by taking that fault, at its own address, in the state the step began in
(R152): neither the soft failure nor an instruction's effect sets the run status so. -/
theorem step_eq_takeFault {s t : State} {f : FatalFault} (hr : s.status = .running) (hstep : step s = .next t)
    (hf : t.status = .faulted f) : t = s.takeFault f ∧ f.pcFetch = s.pc := by
  rcases step_cases hstep with ⟨hs, -⟩ | ⟨-, g, rfl, hg⟩ | ⟨-, op, rest, -, -, rfl⟩ | ⟨-, i, rest, -, he⟩
  · exact absurd hr hs
  · rw [State.takeFault_status] at hf
    cases hf
    exact ⟨rfl, hg⟩
  · have hsoft : (s.softFail op (operandCount op)).status = .running := hr
    rw [hsoft] at hf
    cases hf
  · rcases he.status_cases with h | ⟨-, h⟩
    · rw [h, hr] at hf
      cases hf
    · rw [h] at hf
      cases hf

/-- Settles O32: the state after is the fault taken in the state before, whose fields are those of `State.takeFault`,
and a FAULTED core answers every further step with itself. -/
theorem fatalFaultIsPrecise : Obligations.FatalFaultIsPrecise := by
  intro s t f hr hstep hf
  obtain ⟨rfl, hpc⟩ := step_eq_takeFault hr hstep hf
  have hstopped : (s.takeFault f).status ≠ .running := by simp
  refine ⟨rfl, rfl, rfl, rfl, rfl, hpc, rfl, fatalStatus_ne_zero, rfl, fun u hu => ?_⟩
  rw [step_stopped hstopped, next_inj] at hu
  exact hu.symm

end Sys2Proof.Machine
end

section
/-! The round trip of the encoding, and its fixed words (spec/30_encoding.md). -/

namespace Sys2Proof.Machine

/-- The decoder reads an instruction back from its own bytes, whatever follows. -/
theorem decode_encode_append (i : Instr) (rest : List Byte) : decode (encode i ++ rest) = .ok i rest := by
  cases i <;> rfl

/-- Settles O30: `decode_ok` is one direction and `decode_encode_append` the other. -/
theorem decodeIffEncode : Obligations.DecodeIffEncode :=
  fun _ _ _ => ⟨decode_ok, fun h => h ▸ decode_encode_append _ _⟩

/-- Different instructions have different bytes. -/
theorem encode_injective : Function.Injective encode := by
  intro i j h
  have hj : decode (encode i ++ []) = .ok j [] := h ▸ decode_encode_append j []
  rw [decode_encode_append] at hj
  cases hj
  rfl

/-- Settles O31: each word is an instruction's bytes, and 0x41 is no value of the opcode map. -/
theorem someWordsDecode : Obligations.SomeWordsDecode :=
  ⟨decode_encode_append .ret [], decode_encode_append (.push 3) [], decode_encode_append (.jeq 2) [],
    decode_encode_append (.ldi 0 8) [], decode_encode_append (.div 0 1) [],
    (decode_eq_unknown_iff _ _).2 (by decide)⟩

end Sys2Proof.Machine
end

section
/-! SUPPORT. What an instruction's effect does to memory, to the registers and to the exit status, and what follows for
every answer of `exec`: the frame, one lemma per field (spec/10_state.md R22, R26, R28, R29, spec/20_memory.md R42). -/

namespace Sys2Proof.Machine

/-- Only memory decides what an address reads as. -/
theorem State.readByte_congr {s t : State} (h : t.mem = s.mem) (a : Byte) : t.readByte a = s.readByte a := by
  rw [State.readByte, h, State.readByte]

/-- Only PUSH and CALL store, one byte, at the decremented SP (R42, R100). -/
theorem Effect.mem_cases {i : Instr} {s t : State} (h : Effect i s t) :
    t.mem = s.mem ∨
      (∃ r, i = .push r ∨ i = .call r) ∧ ∃ v, t.mem = (s.writeByte s.pushAddr v).mem := by
  cases h with
  | push => exact .inr ⟨⟨_, .inl rfl⟩, _, rfl⟩
  | call => exact .inr ⟨⟨_, .inr rfl⟩, _, rfl⟩
  | _ => exact .inl rfl

/-- The operand bytes of the registers an instruction writes: the register-write table (R22). -/
def writtenRegs : Instr → List Byte
  | .ldi r _ | .inc r | .dec r => [r]
  | .add a _ | .mul a _ | .div a _ => [a]
  | .pop r => [r, regByte 7]
  | .push _ | .call _ | .ret => [regByte 7]
  | .hlt | .prn _ | .jmp _ | .jeq _ | .jne _ | .cmp _ _ => []

theorem Effect.reg_eq {i : Instr} {s t : State} (h : Effect i s t) {k : Reg} (hk : regByte k ∉ writtenRegs i) :
    t.reg k = s.reg k := by
  cases h with
  | hlt | prn | jmp | jeqTaken | jeqNot | jneTaken | jneNot | cmp => rfl
  | _ => simp [writtenRegs] at hk; simp [hk]

/-- Only HLT's effect writes the exit status (R28). -/
theorem Effect.exitStatus_cases {i : Instr} {s t : State} (h : Effect i s t) :
    t.exitStatus = s.exitStatus ∨ (i = .hlt ∧ t.exitStatus = 0) := by
  cases h with
  | hlt => exact .inr ⟨rfl, rfl⟩
  | _ => exact .inl rfl

/-- HLT alone leaves the run status, the exit status and the diagnostics neither kept nor faulted. -/
theorem exec_statusKeptOrFault {i : Instr} {s t : State} (hi : i ≠ .hlt) (h : exec i s = .next t) :
    StatusKeptOrFault s t := by
  obtain ⟨f, rfl, -⟩ | he := exec_cases h
  · exact .inr ⟨f, rfl⟩
  · exact .inl ⟨he.status_cases.resolve_right fun hh => hi hh.1,
      he.exitStatus_cases.resolve_right fun hh => hi hh.1, he.diag_eq⟩

theorem exec_reg_eq {i : Instr} {s t : State} {k : Reg} (hk : regByte k ∉ writtenRegs i) (h : exec i s = .next t) :
    t.reg k = s.reg k := by
  obtain ⟨f, rfl, -⟩ | he := exec_cases h
  · rfl
  · exact he.reg_eq hk

theorem exec_out_of_ne_prn {i : Instr} {s t : State} (hi : ∀ r, i ≠ .prn r) (h : exec i s = .next t) :
    t.out = s.out := by
  obtain ⟨f, rfl, -⟩ | he := exec_cases h
  · rfl
  · exact he.out_cases.resolve_right fun ⟨_, hp, _⟩ => hi _ hp

theorem exec_mem_cases {i : Instr} {s t : State} (h : exec i s = .next t) :
    t.mem = s.mem ∨
      (∃ r, i = .push r ∨ i = .call r) ∧ ∃ v, t.mem = (s.writeByte s.pushAddr v).mem := by
  obtain ⟨f, rfl, -⟩ | he := exec_cases h
  · exact .inl rfl
  · exact he.mem_cases

theorem exec_memKept {i : Instr} {s t : State} (hi : ∀ r, i ≠ .push r ∧ i ≠ .call r) (h : exec i s = .next t) :
    MemKept s t :=
  State.readByte_congr ((exec_mem_cases h).resolve_right fun ⟨⟨r, hr⟩, _⟩ => hr.elim (hi r).1 (hi r).2)

/-- An instruction that is none of HLT, PRN, CMP, PUSH and CALL can complete only by writing registers and `pc`. -/
theorem exec_keeps_but_regs_pc {i : Instr} {s t : State}
    (hi : i ≠ .hlt ∧ (∀ r, i ≠ .prn r) ∧ (∀ a b, i ≠ .cmp a b) ∧ ∀ r, i ≠ .push r ∧ i ≠ .call r)
    (h : exec i s = .next t) : t.fl = s.fl ∧ t.out = s.out ∧ MemKept s t ∧ StatusKeptOrFault s t := by
  obtain ⟨hhlt, hprn, hcmp, hstore⟩ := hi
  exact ⟨exec_fl_of_ne_cmp hcmp h, exec_out_of_ne_prn hprn h, exec_memKept hstore h, exec_statusKeptOrFault hhlt h⟩

theorem exec_memKeptBut {i : Instr} {s t : State} (h : exec i s = .next t) : MemKeptBut s.pushAddr s t := by
  intro b hb
  obtain hm | ⟨-, v, hm⟩ := exec_mem_cases h
  · exact State.readByte_congr hm b
  · rw [State.readByte_congr hm, State.writeByte_readByte, if_neg hb]

end Sys2Proof.Machine
end

section
/-! SUPPORT. The agreement of run status, exit status and diagnostics (spec/10_state.md R28), by the run status. -/

namespace Sys2Proof.Machine

theorem State.statusAgrees_of_running {s : State} (h : s.status = .running) : s.StatusAgrees := by
  rw [State.StatusAgrees, h]; trivial

theorem State.statusAgrees_of_halted {s : State} (h : s.status = .halted) (he : s.exitStatus = 0) :
    s.StatusAgrees := by
  rw [State.StatusAgrees, h]; exact he

/-- Taking a fault at the state's own address records it in all three places (R152). -/
theorem State.takeFault_statusAgrees {s : State} {f : FatalFault} (hf : f.pcFetch = s.pc) :
    (s.takeFault f).StatusAgrees :=
  ⟨rfl, List.getLast?_concat, hf⟩

theorem Effect.statusAgrees {i : Instr} {s t : State} (h : Effect i s t) (hr : s.status = .running) :
    t.StatusAgrees := by
  by_cases hi : i = .hlt
  · subst hi
    cases h
    exact State.statusAgrees_of_halted rfl rfl
  · exact State.statusAgrees_of_running ((h.status_cases.resolve_right fun hh => hi hh.1).trans hr)

theorem Effect.mem_wf {i : Instr} {s t : State} (h : Effect i s t) (hm : s.mem.wf) : t.mem.wf := by
  obtain hk | ⟨-, v, hw⟩ := h.mem_cases
  · rwa [hk]
  · rw [hw]; exact State.writeByte_wf _ _ hm

end Sys2Proof.Machine
end

section
/-! The statements about memory and the consistency of the state (spec/20_memory.md, spec/10_state.md). -/

namespace Sys2Proof.Machine

/-- Settles O39, by the cases of a step: the one store an effect makes is in canonical form, and a running core leaves
the status RUNNING but for HLT and for a fault taken at its own address. -/
theorem stepKeepsStateConsistent : Obligations.StepKeepsStateConsistent := by
  intro s t ⟨hm, ha⟩ hstep
  rcases step_cases hstep with ⟨-, rfl⟩ | ⟨-, f, rfl, hf⟩ | ⟨hr, op, rest, -, -, rfl⟩ | ⟨hr, i, rest, -, he⟩
  · exact ⟨hm, ha⟩
  · exact ⟨hm, State.takeFault_statusAgrees hf⟩
  · exact ⟨hm, State.statusAgrees_of_running hr⟩
  · exact ⟨he.mem_wf hm, he.statusAgrees hr⟩

/-- Settles O37, by the cases of a step: only an effect stores, and only PUSH's and CALL's. -/
theorem onlyPushAndCallStore : Obligations.OnlyPushAndCallStore := by
  intro s t a hstep hne
  rcases step_cases hstep with ⟨-, rfl⟩ | ⟨-, f, rfl, -⟩ | ⟨-, op, rest, -, -, rfl⟩ | ⟨-, i, rest, hf, he⟩
  · exact absurd rfl hne
  · exact absurd rfl hne
  · exact absurd rfl hne
  · obtain hm | ⟨⟨r, hi⟩, v, hm⟩ := he.mem_cases
    · exact absurd (State.readByte_congr hm a) hne
    · rw [State.readByte_congr hm, State.writeByte_readByte] at hne
      refine ⟨by_contra fun ha => hne (if_neg ha), r, ?_⟩
      rw [State.nextInstr?_eq_some.2 ⟨rest, hf⟩]
      exact hi.imp (congrArg some) (congrArg some)

end Sys2Proof.Machine
end

section
/-! The frames: what each family of instructions leaves unchanged (spec/10_state.md R22, spec/20_memory.md R42). -/

namespace Sys2Proof.Machine

/-- Settles O17: for each of the six, the registers by the register-write table, and the rest together. -/
theorem registerResultFrame : Obligations.RegisterResultFrame := by
  intro a b s t i hi h
  simp only [List.mem_cons, List.not_mem_nil, or_false] at hi
  obtain rfl | rfl | rfl | rfl | rfl | rfl := hi
  all_goals
    exact ⟨fun k hk => exec_reg_eq (by simpa [writtenRegs] using hk) h, exec_keeps_but_regs_pc (by simp) h⟩

/-- Settles O18: CMP and PRN field by field; HLT's next state is written out. -/
theorem compareOutputHaltFrame : Obligations.CompareOutputHaltFrame := by
  refine fun a b s t => ⟨fun h => ?_, fun h => ?_, fun h => ?_⟩
  · exact ⟨fun k _ => exec_reg_eq (by simp [writtenRegs]) h, exec_out_of_ne_prn (by simp) h,
      exec_memKept (by simp) h, exec_statusKeptOrFault (by simp) h⟩
  · exact ⟨fun k _ => exec_reg_eq (by simp [writtenRegs]) h, exec_fl_of_ne_cmp (by simp) h,
      exec_memKept (by simp) h, exec_statusKeptOrFault (by simp) h⟩
  · rw [exec_hlt, next_inj] at h
    subst h
    exact ⟨fun _ _ => rfl, rfl, rfl, fun _ => rfl, rfl⟩

/-- Settles O19: the jumps write no register, and so nothing but `pc`. -/
theorem jumpFrame : Obligations.JumpFrame := by
  intro r s t i hi h
  simp only [List.mem_cons, List.not_mem_nil, or_false] at hi
  obtain rfl | rfl | rfl := hi
  all_goals
    exact ⟨fun k _ => exec_reg_eq (by simp [writtenRegs]) h, exec_keeps_but_regs_pc (by simp) h⟩

/-- Settles O20, field by field; memory is kept but at the decremented SP by every instruction. -/
theorem storingFrame : Obligations.StoringFrame := by
  intro r s t i hi h
  simp only [List.mem_cons, List.not_mem_nil, or_false] at hi
  obtain rfl | rfl := hi
  all_goals
    exact ⟨fun k hk => exec_reg_eq (by simpa [writtenRegs] using hk) h, exec_fl_of_ne_cmp (by simp) h,
      exec_out_of_ne_prn (by simp) h, exec_memKeptBut h, exec_statusKeptOrFault (by simp) h⟩

/-- Settles O21: a pop writes SP and POP's destination, and stores nothing. -/
theorem stackReadFrame : Obligations.StackReadFrame := by
  refine fun r s t => ⟨fun h => ?_, fun h => ?_⟩
  · exact ⟨fun k h7 hk => exec_reg_eq (by simpa [writtenRegs] using ⟨hk, h7⟩) h,
      exec_keeps_but_regs_pc (by simp) h⟩
  · exact ⟨fun k hk => exec_reg_eq (by simpa [writtenRegs] using hk) h, exec_keeps_but_regs_pc (by simp) h⟩

end Sys2Proof.Machine
end

section
/-! SUPPORT. Bytes at `pc`: the instruction they are, and the bytes a store of consecutive bytes leaves there
(spec/40_dispatcher.md R81, spec/70_reset_and_hazards.md R172). -/

namespace Sys2Proof.Machine

theorem State.BytesAtPc.of_append {s : State} {bs rest : List Byte} (h : s.BytesAtPc (bs ++ rest)) :
    s.BytesAtPc bs := by
  obtain ⟨hle, hb⟩ := h
  rw [List.length_append] at hle
  refine ⟨by omega, fun k hk => ?_⟩
  rw [hb k (by rw [List.length_append]; omega), List.getElem_append_left hk]

/-- The operand bytes of an instruction at `pc` are the bytes after `pc`, as many as it uses. -/
theorem State.BytesAtPc.operandBytes_eq {s : State} {i : Instr} (h : s.BytesAtPc (encode i)) :
    operandBytes i = s.operandsAtPc.take (operandCount (opcodeByte i)) := by
  obtain ⟨-, hb⟩ := h
  have h2 := operandCount_le_two (opcodeByte_mem i)
  have hlen := operandBytes_length i
  have hget (k : Nat) (hk : k < (operandBytes i).length) :
      (operandBytes i)[k] = s.readByte (BitVec.ofNat 8 (s.pc.toNat + (k + 1))) :=
    (hb (k + 1) (Nat.succ_lt_succ hk)).symm
  refine List.ext_getElem (by rw [State.operandsAtPc_take_length]; omega) fun k hk _ => ?_
  rw [hget k hk, List.getElem_take]
  obtain rfl | rfl : k = 0 ∨ k = 1 := by omega
  · rfl
  · rfl

/-- The step of a running core is the instruction whose encoding stands at `pc` (R88). -/
theorem step_of_bytesAtPc {s : State} {i : Instr} (hr : s.status = .running) (h : s.BytesAtPc (encode i)) :
    step s = exec i s := by
  obtain ⟨hle, hb⟩ := h
  have hop : s.readByte (BitVec.ofNat 8 s.pc.toNat) = opcodeByte i := hb 0 (Nat.succ_pos _)
  have hle' : s.pc.toNat + ((operandBytes i).length + 1) ≤ 256 := hle
  rw [operandBytes_length] at hle'
  obtain ⟨j, hj, hstep⟩ := step_known hr hop (opcodeByte_mem i) (by omega)
  rw [← State.BytesAtPc.operandBytes_eq ⟨hle, hb⟩] at hj
  rwa [encode_injective (show encode j = encode i from hj)] at hstep

/-- Inside memory a store of consecutive bytes is one write after the other. -/
theorem State.storeBytes_cons {s : State} {a : Nat} (ha : a < Config.memSize) (v : Byte) (vs : List Byte) :
    s.storeBytes a (v :: vs) = (s.writeByte (BitVec.ofNat 8 a) v).storeBytes (a + 1) vs := by
  rw [State.storeBytes, if_pos ha]

/-- A store of consecutive bytes changes nothing but memory. -/
theorem State.storeBytes_eq_withMem (s : State) (a : Nat) (vs : List Byte) :
    ∃ m, s.storeBytes a vs = { s with mem := m } := by
  induction vs generalizing s a with
  | nil => exact ⟨s.mem, rfl⟩
  | cons v vs ih =>
    rw [State.storeBytes]
    split
    · exact ih (s.writeByte _ v) (a + 1)
    · exact ih s (a + 1)

/-- Addresses below the first one stored to read as before. -/
theorem State.storeBytes_readByte_of_lt {s : State} {a : Nat} {b : Byte} (vs : List Byte) (hb : b.toNat < a) :
    (s.storeBytes a vs).readByte b = s.readByte b := by
  induction vs generalizing s a with
  | nil => rfl
  | cons v vs ih =>
    rw [State.storeBytes, ih (by omega)]
    split
    case isFalse => rfl
    case isTrue ha =>
      have hne : b ≠ BitVec.ofNat 8 a := by
        rintro rfl
        rw [BitVec.toNat_ofNat] at hb
        have := Nat.mod_eq_of_lt (show a < 2 ^ 8 from ha)
        omega
      rw [State.writeByte_readByte, if_neg hne]

/-- Bytes stored inside memory are read back. -/
theorem State.storeBytes_readByte {s : State} {a : Nat} {vs : List Byte} (ha : a + vs.length ≤ Config.memSize)
    (k : Nat) (hk : k < vs.length) : (s.storeBytes a vs).readByte (BitVec.ofNat 8 (a + k)) = vs[k] := by
  induction vs generalizing s a k with
  | nil => cases hk
  | cons v vs ih =>
    rw [List.length_cons] at ha hk
    have hlt : a < 256 := show a < Config.memSize by omega
    rw [State.storeBytes_cons hlt]
    cases k with
    | zero =>
      rw [State.storeBytes_readByte_of_lt vs (by rw [BitVec.toNat_ofNat]; omega), State.writeByte_readByte]
      exact if_pos rfl
    | succ k =>
      rw [Nat.add_left_comm a k 1, Nat.add_comm k, List.getElem_cons_succ]
      exact ih (by omega) k (by omega)

theorem State.withFetchWord_eq_withMem (s : State) (nbits w : Nat) :
    ∃ m, s.withFetchWord nbits w = { s with mem := m } :=
  s.storeBytes_eq_withMem s.pc.toNat (tableBytes nbits w)

/-- The word stored where the next step fetches stands at `pc`. -/
theorem State.withFetchWord_bytesAtPc {s : State} (nbits w : Nat) (hp : s.pc.toNat ≤ 253) :
    (s.withFetchWord nbits w).BytesAtPc (tableBytes nbits w) := by
  have hle : s.pc.toNat + (tableBytes nbits w).length ≤ Config.memSize := show s.pc.toNat + 3 ≤ 256 by omega
  have hpc : (s.withFetchWord nbits w).pc = s.pc := by
    obtain ⟨m, hm⟩ := s.withFetchWord_eq_withMem nbits w
    rw [hm]
  rw [State.BytesAtPc, hpc]
  exact ⟨hle, State.storeBytes_readByte hle⟩

/-- A word decodes to the instruction whose bytes it begins with. -/
theorem tableBytes_of_decodeTableWord {nbits w : Nat} {i : Instr} (h : decodeTableWord nbits w = some i) :
    ∃ rest, tableBytes nbits w = encode i ++ rest := by
  unfold decodeTableWord at h
  split at h
  case h_1 j rest hd => cases h; exact ⟨rest, decode_ok hd⟩
  case h_2 => cases h

/-- The first byte fetched inside memory. -/
theorem State.fetchBytes_head?_eq {s : State} {a : Byte} (h : s.pc.toNat = a.toNat) :
    s.fetchBytes.head? = some (s.readByte a) := by
  have := a.isLt
  obtain ⟨rest, hb⟩ := State.fetchBytes_head (s := s) (by omega)
  rw [hb, h, BitVec.ofNat_toNat, BitVec.setWidth_eq, List.head?_cons]

end Sys2Proof.Machine
end

section
/-! The statements about the instruction at `pc`, and about stores over it (spec/40_dispatcher.md,
spec/70_reset_and_hazards.md R176). -/

namespace Sys2Proof.Machine

/-- Settles O27: it is `step_of_bytesAtPc`. -/
theorem stepRunsTheInstructionAtPc : Obligations.StepRunsTheInstructionAtPc :=
  fun _ _ hr h => step_of_bytesAtPc hr h

/-- Settles O28: the bytes stored at `pc` begin with the encoding of the instruction they decode to. -/
theorem fetchWordIsRun : Obligations.FetchWordIsRun := by
  intro s nbits w i hr hp hw
  obtain ⟨rest, hbytes⟩ := tableBytes_of_decodeTableWord hw
  have hat := s.withFetchWord_bytesAtPc nbits w hp
  rw [hbytes] at hat
  have hr' : (s.withFetchWord nbits w).status = .running := by
    obtain ⟨m, hm⟩ := s.withFetchWord_eq_withMem nbits w
    rw [hm, hr]
  exact step_of_bytesAtPc hr' hat.of_append

/-- Settles O44: the fetch reads the slot after the store, for each of the two instructions. -/
theorem nextFetchSeesTheStore : Obligations.NextFetchSeesTheStore := by
  intro i r s t hi hr hat h0 hp hstep hpc
  rw [step_of_bytesAtPc hr hat] at hstep
  rw [State.fetchBytes_head?_eq hpc]
  obtain rfl | rfl := hi
  · have hne : Instr.push (regByte r) ≠ .call (regByte r) := nofun
    rw [exec_push_next h0, next_inj] at hstep
    rw [← hstep, State.advance_readByte, State.pushReg_readByte, if_pos rfl, if_neg hne]
  · rw [exec_call_next h0 (by omega), next_inj] at hstep
    rw [← hstep, State.redirect_readByte, State.push_readByte, if_pos rfl, if_pos rfl]

/-- Settles O45, from what O9 says of the CALL: the register was named before the store, and the slot holds the return
address. -/
theorem callOverItsOwnOperand : Obligations.CallOverItsOwnOperand := by
  intro i s hi hr hat hp h0 hslot
  obtain ⟨-, -, -, hcall⟩ := callPushesReturnAddressAndJumps
  obtain ⟨-, -, hnext⟩ := hcall i s
  obtain ⟨t, ht, hsp, hret, hpc, -⟩ := hnext h0 (by omega)
  have hstep : step s = exec (.call (regByte i)) s := step_of_bytesAtPc hr hat
  have hat' : BitVec.ofNat 8 (s.pc.toNat + 1) = t.sp := by
    rw [← hslot, State.pushAddr_toNat h0, ← hsp, BitVec.ofNat_toNat, BitVec.setWidth_eq]
  rw [if_neg hi] at hpc
  exact ⟨t, hstep.trans ht, hpc, by rw [hat', hret]⟩

end Sys2Proof.Machine
end

section
/-! SUPPORT. Runs: a state that steps to itself, `run_until_halt` by the run status, and the launch poke by poke
(spec/70_reset_and_hazards.md R172 to R174). -/

namespace Sys2Proof.Machine

/-- A state that steps to itself is where any number of steps ends. -/
theorem run_of_step_self {s : State} (h : step s = .next s) (n : Nat) : Host.Core.run core n s = .next s := by
  induction n with
  | zero => rfl
  | succ n ih => rw [run_succ n h, ih]

theorem run_stopped {s : State} (h : s.status ≠ .running) (n : Nat) : Host.Core.run core n s = .next s :=
  run_of_step_self (step_stopped h) n

/-- A redirect to `pc` itself changes nothing. -/
theorem State.redirect_self {s : State} {v : Byte} (h : v.toNat = s.pc.toNat) : s.redirect v = s := by
  rw [State.redirect, h, BitVec.ofNat_toNat, BitVec.setWidth_eq]

theorem runUntilHalt_stopped {s : State} (h : s.status ≠ .running) (n : Nat) : runUntilHalt n s = some s := by
  cases n with
  | zero => rw [runUntilHalt, if_neg h]
  | succ n => rw [runUntilHalt, if_neg h]

theorem runUntilHalt_zero {s : State} (h : s.status = .running) : runUntilHalt 0 s = none := by
  rw [runUntilHalt, if_pos h]

theorem runUntilHalt_succ {s t : State} (n : Nat) (hr : s.status = .running) (h : step s = .next t) :
    runUntilHalt (n + 1) s = runUntilHalt n t := by
  simp only [runUntilHalt, if_pos hr, h]

/-- A stopped core is the final state of its run, whatever the bound. -/
theorem runUntilHalt_iff_of_stopped {s t : State} (h : s.status ≠ .running) (n : Nat) :
    runUntilHalt n s = some t ↔ (Host.Core.run core n s = .next t ∧ t.status ≠ .running) := by
  rw [runUntilHalt_stopped h, run_stopped h, Option.some_inj]
  exact ⟨fun hst => ⟨hst ▸ rfl, hst ▸ h⟩, fun ⟨hst, _⟩ => next_inj.1 hst⟩

theorem launch_concat (image : List (Byte × Byte)) (c : Byte × Byte) :
    launch (image ++ [c]) = (launch image).poke c.1 c.2 :=
  List.foldl_concat ..

/-- Pokes at other addresses leave a byte as it is. -/
theorem launch_append_readByte {after : List (Byte × Byte)} {a : Byte} (before : List (Byte × Byte))
    (h : ∀ c ∈ after, c.1 ≠ a) : (launch (before ++ after)).readByte a = (launch before).readByte a := by
  induction after using List.reverseRecOn with
  | nil => rw [List.append_nil]
  | append_singleton after c ih =>
    have hc : a ≠ c.1 := (h c (by simp)).symm
    rw [← List.append_assoc, launch_concat, State.poke, State.writeByte_readByte, if_neg hc]
    exact ih fun d hd => h d (List.mem_append_left _ hd)

theorem launch_eq_withMem (image : List (Byte × Byte)) : ∃ m, launch image = { State.reset with mem := m } := by
  induction image using List.reverseRecOn with
  | nil => exact ⟨[], rfl⟩
  | append_singleton image c ih =>
    obtain ⟨m, hm⟩ := ih
    exact ⟨_, by rw [launch_concat, hm]; rfl⟩

theorem launch_mem_wf (image : List (Byte × Byte)) : (launch image).mem.wf := by
  induction image using List.reverseRecOn with
  | nil => exact Memory.wf_nil
  | append_singleton image c ih => rw [launch_concat]; exact State.writeByte_wf _ _ ih

end Sys2Proof.Machine
end

section
/-! The statements about reset, boot and runs (spec/10_state.md R30, spec/70_reset_and_hazards.md). -/

namespace Sys2Proof.Machine

/-- Settles O46, read off `State.reset`. -/
theorem resetValues : Obligations.ResetValues :=
  ⟨by decide, rfl, State.reset_pc, State.reset_fl, State.reset_status, State.reset_out, State.reset_diag⟩

/-- Settles O40: a launch is reset with another memory, in canonical form because pokes are stores; reset itself
is the launch with no pokes. -/
theorem launchMeetsTheInvariants : Obligations.LaunchMeetsTheInvariants := by
  have hlaunch (image : List (Byte × Byte)) : (launch image).Inv ∧ (launch image).Consistent := by
    obtain ⟨m, hm⟩ := launch_eq_withMem image
    have hpc : (launch image).pc = 0 := by rw [hm, State.reset_pc]
    have hfl : (launch image).fl = 0 := by rw [hm, State.reset_fl]
    have hr : (launch image).status = .running := by rw [hm, State.reset_status]
    exact ⟨⟨by simp [hpc], by simp [hfl]⟩, launch_mem_wf image, State.statusAgrees_of_running hr⟩
  obtain ⟨hinv, hcon⟩ := hlaunch []
  exact ⟨hinv, hcon, hlaunch⟩

/-- Settles O47: the poke at an address decides its byte, and the pokes after it are elsewhere. -/
theorem launchImageIsWhatWasPoked : Obligations.LaunchImageIsWhatWasPoked := by
  refine fun image a => ⟨?_, fun h => launch_append_readByte [] h, launch_eq_withMem image⟩
  rintro before v after rfl h
  rw [List.append_cons, launch_append_readByte _ h, launch_concat, State.poke, State.writeByte_readByte, if_pos rfl]

/-- Settles O41: a stopped core steps to itself. -/
theorem stoppedCoreStaysAsItIs : Obligations.StoppedCoreStaysAsItIs :=
  fun _ n h => ⟨step_stopped h, run_stopped h n⟩

/-- Settles O49: the JMP's redirect is to the `pc` it stands at. -/
theorem jumpToItselfHangs : Obligations.JumpToItselfHangs := by
  intro i s n hr hat hreg
  have hstep : step s = exec (.jmp (regByte i)) s := step_of_bytesAtPc hr hat
  rw [exec_jmp, State.redirect_self hreg] at hstep
  exact run_of_step_self hstep n

/-- Settles O48, by induction on the bound: a running core takes the same step on both sides, and a stopped one is
final on both. -/
theorem runUntilHaltFindsTheFinalState : Obligations.RunUntilHaltFindsTheFinalState := by
  intro n s t
  induction n generalizing s with
  | zero =>
    by_cases hr : s.status = .running
    · rw [runUntilHalt_zero hr]
      refine iff_of_false nofun fun ⟨hrun, ht⟩ => ht ?_
      rw [← next_inj.1 hrun, hr]
    · exact runUntilHalt_iff_of_stopped hr 0
  | succ n ih =>
    by_cases hr : s.status = .running
    · obtain ⟨u, hu⟩ := step_total s
      rw [runUntilHalt_succ n hr hu, run_succ n hu]
      exact ih u
    · exact runUntilHalt_iff_of_stopped hr (n + 1)

end Sys2Proof.Machine
end

section
/-! The statement about the cause codes (spec/60_exceptions.md R151). -/

namespace Sys2Proof.Machine

/-- Settles O35, row by row. -/
theorem causeCodesAreTheTable : Obligations.CauseCodesAreTheTable :=
  ⟨rfl, rfl, fun _ _ _ _ => ⟨rfl, rfl, rfl, rfl, rfl, rfl⟩⟩

end Sys2Proof.Machine
end

section
/-! SUPPORT. A core with nothing but unrecognized bytes ahead (spec/40_dispatcher.md R82, R86): the two kinds of step it
takes, and how they add up. -/

namespace Sys2Proof.Machine

/-- Every byte from `pc` on is unrecognized. -/
def State.OnlyUnknownAhead (s : State) : Prop :=
  ∀ a : Byte, s.pc.toNat ≤ a.toNat → (s.readByte a).toNat ∉ opcodeValues

/-- `n` steps from `s` end in `t`, off the top in a FETCH fault, with a record a step and only the run status, the exit
status, `pc` and the diagnostics changed. -/
structure RunsOffTheTop (n : Nat) (s t : State) : Prop where
  run : Host.Core.run core n s = .next t
  pc_gt : 255 < t.pc.toNat
  status : t.status = .faulted (.addrFault .fetch t.pc t.pc.toNat)
  diag_length : t.diag.length = s.diag.length + n
  regs : t.regs = s.regs
  fl : t.fl = s.fl
  mem : t.mem = s.mem
  out : t.out = s.out

/-- Past the top one step is enough. -/
theorem RunsOffTheTop.of_pastTop {s : State} (hr : s.status = .running) (hp : 255 < s.pc.toNat) :
    RunsOffTheTop 1 s (s.takeFault (.addrFault .fetch s.pc s.pc.toNat)) where
  run := run_succ 0 (step_pastTop hr hp)
  pc_gt := hp
  status := rfl
  diag_length := List.length_append
  regs := rfl
  fl := rfl
  mem := rfl
  out := rfl

/-- A soft failure before the run adds its step and its record. -/
theorem RunsOffTheTop.of_softFail {s t : State} {op : Byte} {k n : Nat} (hstep : step s = .next (s.softFail op k))
    (h : RunsOffTheTop n (s.softFail op k) t) : RunsOffTheTop (n + 1) s t where
  __ := h
  run := (run_succ n hstep).trans h.run
  diag_length := by
    have hone : (s.softFail op k).diag.length = s.diag.length + 1 := List.length_append
    rw [h.diag_length, hone]; omega

/-- From `m` addresses below the top at most, the run takes at most `m + 1` steps: each soft failure raises `pc`. -/
theorem exists_runsOffTheTop {s : State} (m : Nat) (hm : 256 ≤ s.pc.toNat + m) (hr : s.status = .running)
    (hs : s.OnlyUnknownAhead) : ∃ n t, n ≤ m + 1 ∧ RunsOffTheTop n s t := by
  induction m generalizing s with
  | zero => exact ⟨1, _, le_rfl, .of_pastTop hr hm⟩
  | succ m ih =>
    by_cases hp : s.pc.toNat ≤ 255
    · obtain ⟨op, hop⟩ : ∃ op, s.readByte (BitVec.ofNat 8 s.pc.toNat) = op := ⟨_, rfl⟩
      have hunknown : op.toNat ∉ opcodeValues := hop ▸ hs _ (by rw [BitVec.toNat_ofNat]; omega)
      have hpc := State.softFail_pc_toNat op hp
      obtain ⟨n, t, hn, ht⟩ := ih (s := s.softFail op (operandCount op)) (by omega) hr fun a ha => hs a (by omega)
      exact ⟨n + 1, t, by omega, .of_softFail (step_unknownOpcode hr hp hop hunknown) ht⟩
    · exact ⟨1, _, by omega, .of_pastTop hr (by omega)⟩

end Sys2Proof.Machine
end

section
/-! The statement about running off the top (spec/60_exceptions.md, spec/40_dispatcher.md). -/

namespace Sys2Proof.Machine

/-- Settles O50: from any `pc` the top is at most 256 addresses away. -/
theorem unknownBytesRunOffTheTop : Obligations.UnknownBytesRunOffTheTop := by
  intro s hr hs
  obtain ⟨n, t, hn, ht⟩ := exists_runsOffTheTop 256 (by omega) hr hs
  exact ⟨n, t, hn, ht.run, ht.pc_gt, ht.status, ht.diag_length, ht.regs, ht.fl, ht.mem, ht.out⟩

end Sys2Proof.Machine
end
